-- ==== Sys2Proof/Word.lean ====
section
/-! DEFINITION. The word types of the block (rules R10, R11, R37): every register, address and data value is a 32-bit
vector, memory is addressed in bytes, and a register index is a 5-bit field. -/

namespace Sys2Proof

/-- A register, address or data value (R11). -/
abbrev Word := BitVec 32

/-- One byte of memory (R37, R38). -/
abbrev Byte := BitVec 8

/-- A register-index field, `x0` to `x31` (R14, R66). -/
abbrev RegIdx := BitVec 5

/-- The opcode field `ir[6:0]` (R66). -/
abbrev Opcode := BitVec 7

end Sys2Proof
end

