-- ==== Sys2Proof/Config.lean ====
section
/-! DEFINITION. The implementation parameters of rule R7 and their constraints (R8). The values are fixed for one
machine; a state carries them in the field `cfg` (log entry 1), so that every statement about all states quantifies
over them, as D1 and D3 ask. The two parameters that are functions of `ir` are given as data: a reading, which is
either the reference value of the spec or another function about which nothing is known (log entry 4). -/

namespace Sys2Proof

/-- How an offset the spec calls uncertain is read from `ir` (U3, U4): by the rule's reference value, or by some other
function, numbered `k`, of which the model knows nothing. DESIGN CHOICE, safe (log entry 4). -/
inductive OffsetReading where
  | reference
  | other (k : Nat)
  deriving DecidableEq, Repr

/-- `STORE_IMM` and `JAL_IMM` (R7). -/
structure ImmReadings where
  storeImm : OffsetReading
  jalImm   : OffsetReading
  deriving DecidableEq, Repr

/-- The reference values "used by every rule" (R7, R69, R72). -/
def ImmReadings.reference : ImmReadings := { storeImm := .reference, jalImm := .reference }

/-- A value of `STORE_IMM` other than the reference: a function of `ir`, left open (U3). -/
opaque Config.otherStoreImm : Nat → Word → Word

/-- A value of `JAL_IMM` other than the reference: a function of `ir`, left open (U4). -/
opaque Config.otherJalImm : Nat → Word → Word

/-- The parameters of R7. -/
structure Config where
  /-- `RAM_BASE`, OPEN (D1). -/
  ramBase : Word
  /-- `RAM_SIZE` in bytes (D8). -/
  ramSize : Word
  /-- `OUT_BASE`, OPEN (D3). -/
  outBase : Word
  /-- `LOAD_X0_READS`, OPEN: whether LOAD with rd = 0 performs its bus read (D17). -/
  loadX0Reads : Bool
  /-- `EMIT_HALT_DIAG`, OPEN: whether SYSTEM records a halt diagnostic (D11). -/
  emitHaltDiag : Bool
  /-- `STORE_IMM` and `JAL_IMM`. -/
  imms : ImmReadings
  deriving DecidableEq, Repr

/-- `OUT_SIZE` (R7). -/
def outSize : Nat := 12

/-- The constraints of R8: neither window wraps past address `0xFFFF_FFFF`. The windows may overlap. -/
abbrev Config.valid (c : Config) : Prop :=
  1 ≤ c.ramSize.toNat ∧ c.ramBase.toNat + c.ramSize.toNat ≤ 2 ^ 32 ∧ c.outBase.toNat + outSize ≤ 2 ^ 32

end Sys2Proof
end

