-- ==== Sys2Proof/Syntax.lean ====
section
/-! DEFINITION. The instructions: one constructor per row of spec/opcode_table.json (R73). An operand is the value the
instruction uses: an immediate or an offset is the 32-bit value that decoding assembles from its field (R68 to R72), so
the machine never sees a raw encoding. The second source register of BRANCH and STORE is the rd field (R66); it is
called `rs2` here, as in R87 and R90. The unknown-opcode path is no row of the table: see `Decoded` in Decode.lean. -/

namespace Sys2Proof

inductive Instr where
  /-- `0x01` LUI (R79). -/
  | lui (rd : RegIdx) (imm : Word)
  /-- `0x02` AUIPC (R80). -/
  | auipc (rd : RegIdx) (imm : Word)
  /-- `0x03` JAL (R85). -/
  | jal (rd : RegIdx) (off : Word)
  /-- `0x04` JALR (R86). -/
  | jalr (rd rs1 : RegIdx) (imm : Word)
  /-- `0x05` BRANCH, equality only (R87). -/
  | branch (rs1 rs2 : RegIdx) (off : Word)
  /-- `0x0E` LOAD, byte, unsigned (R89). -/
  | load (rd rs1 : RegIdx) (imm : Word)
  /-- `0x10` STORE, byte (R90). -/
  | store (rs1 rs2 : RegIdx) (imm : Word)
  /-- `0x13` OP_IMM, add only (R92). -/
  | opImm (rd rs1 : RegIdx) (imm : Word)
  /-- `0x27` SYSTEM, halt only (R93). -/
  | system
  deriving DecidableEq, Repr

end Sys2Proof
end

