-- ==== Sys2Proof/WellFormed.lean ====
section
/-! DEFINITION. Which instructions the encoding can express: the ranges that rules R68 to R72 give the immediates, which
are also the operands the assembler of R77 accepts ("rejects an odd offset or one out of range"). A register index has
its width by its type. -/

namespace Sys2Proof

/-- `imm_u` is a multiple of 4096 (R68). -/
abbrev upperImmOk (imm : Word) : Prop := imm.toNat % 4096 = 0

/-- A sign-extended 12-bit immediate lies in `[-2048, 2047]` (R70, R72). -/
abbrev imm12Ok (imm : Word) : Prop := -2048 ≤ imm.toInt ∧ imm.toInt ≤ 2047

/-- A BRANCH offset is even and lies in `[-4096, 4094]` (R71). -/
abbrev branchOffOk (off : Word) : Prop := off.toInt % 2 = 0 ∧ -4096 ≤ off.toInt ∧ off.toInt ≤ 4094

/-- A JAL offset is even and lies in `[-2^20, 2^20 - 2]` (R69). -/
abbrev jalOffOk (off : Word) : Prop := off.toInt % 2 = 0 ∧ -(2 ^ 20) ≤ off.toInt ∧ off.toInt ≤ 2 ^ 20 - 2

/-- The instruction is one the encoding of R67 to R72, under the reference readings, can express. -/
def Instr.wellFormed : Instr → Bool
  | .lui _ imm => decide (upperImmOk imm)
  | .auipc _ imm => decide (upperImmOk imm)
  | .jal _ off => decide (jalOffOk off)
  | .jalr _ _ imm => decide (imm12Ok imm)
  | .branch _ _ off => decide (branchOffOk off)
  | .load _ _ imm => decide (imm12Ok imm)
  | .store _ _ imm => decide (imm12Ok imm)
  | .opImm _ _ imm => decide (imm12Ok imm)
  | .system => true

end Sys2Proof
end

