-- ==== Sys2Proof/Decode.lean ====
section
/-! DEFINITION. Decoding a 32-bit word (R65 to R75) and, after it, the encoder of R77. Decoding is total: every word is
one of the nine instructions or an unknown opcode, by name. -/

namespace Sys2Proof

/-! ## Fields (R66, R67) -/

/-- `ir[6:0]`. -/
def opcodeOf (ir : Word) : Opcode := ir.extractLsb' 0 7

/-- `ir[11:7]`: the destination, and the second source of BRANCH and STORE. -/
def rdOf (ir : Word) : RegIdx := ir.extractLsb' 7 5

/-- `ir[16:12]`. -/
def rs1Of (ir : Word) : RegIdx := ir.extractLsb' 12 5

/-! ## Immediates (R68 to R72) -/

/-- `imm_u = ir[31:12] :: 0^12` (R68). -/
def immU (ir : Word) : Word := ir.extractLsb' 12 20 ++ 0#12

/-- `imm_j = sext_32(ir[31:12]) << 1` (R69), the reference value of `JAL_IMM`. -/
def immJ (ir : Word) : Word := (ir.extractLsb' 12 20).signExtend 32 <<< 1

/-- `imm_i = sext_32(ir[31:20])` (R70). -/
def immI (ir : Word) : Word := (ir.extractLsb' 20 12).signExtend 32

/-- `imm_b = sext_32(ir[31:20]) << 1` (R71). -/
def immB (ir : Word) : Word := (ir.extractLsb' 20 12).signExtend 32 <<< 1

/-- `imm_s = sext_32(ir[31:20])` (R72), the reference value of `STORE_IMM`. -/
def immS (ir : Word) : Word := (ir.extractLsb' 20 12).signExtend 32

/-- JAL's offset under the configuration's `JAL_IMM` (R69, U4). -/
def jalOffset : OffsetReading → Word → Word
  | .reference, ir => immJ ir
  | .other k, ir => Config.otherJalImm k ir

/-- STORE's offset under the configuration's `STORE_IMM` (R72, U3). -/
def storeOffset : OffsetReading → Word → Word
  | .reference, ir => immS ir
  | .other k, ir => Config.otherStoreImm k ir

/-! ## The opcode map (R73) -/

/-- The outcome of decoding: one of the nine instructions, or an unknown opcode, which is a decode fault (R73, R75). -/
inductive Decoded where
  | known (i : Instr)
  | unknown (op : Opcode)
  deriving DecidableEq, Repr

/-- The nine defined opcode values (R73). -/
def definedOpcodes : List Opcode := [0x01#7, 0x02#7, 0x03#7, 0x04#7, 0x05#7, 0x0E#7, 0x10#7, 0x13#7, 0x27#7]

/-- R73: decoding looks at `ir[6:0]` and nothing else to select the operation; R74: bits no field names are ignored. -/
def decode (r : ImmReadings) (ir : Word) : Decoded :=
  match (opcodeOf ir).toNat with
  | 0x01 => .known (.lui (rdOf ir) (immU ir))
  | 0x02 => .known (.auipc (rdOf ir) (immU ir))
  | 0x03 => .known (.jal (rdOf ir) (jalOffset r.jalImm ir))
  | 0x04 => .known (.jalr (rdOf ir) (rs1Of ir) (immI ir))
  | 0x05 => .known (.branch (rs1Of ir) (rdOf ir) (immB ir))
  | 0x0E => .known (.load (rdOf ir) (rs1Of ir) (immI ir))
  | 0x10 => .known (.store (rs1Of ir) (rdOf ir) (storeOffset r.storeImm ir))
  | 0x13 => .known (.opImm (rdOf ir) (rs1Of ir) (immI ir))
  | 0x27 => .known .system
  | _ => .unknown (opcodeOf ir)

/-! ## Bytes of a word (R53: little-endian) -/

/-- `v[8k+7:8k]`. -/
def byteOf (v : Word) (k : Nat) : Byte := v.extractLsb' (8 * k) 8

/-- The word whose bytes, lowest address first, are `b0 b1 b2 b3`. -/
def wordOfBytes (b0 b1 b2 b3 : Byte) : Word := b3 ++ b2 ++ b1 ++ b0

/-- The instruction bits `w` of a table row of `nbits` bits as the 32-bit word (bits above `nbits` are 0). -/
def tableWord (nbits w : Nat) : Word := BitVec.ofNat 32 (w % 2 ^ nbits)

/-- What the decoder reads from a table row's word, laid out in memory byte by byte and read back as the fetch reads it,
under the reference readings. -/
def decodeTableWord (nbits w : Nat) : Option Instr :=
  let v := tableWord nbits w
  match decode .reference (wordOfBytes (byteOf v 0) (byteOf v 1) (byteOf v 2) (byteOf v 3)) with
  | .known i => some i
  | .unknown _ => none

/-! ## Encoding (R67, R77) -/

/-- Formats U and J: a 20-bit field, rd, the opcode. -/
def packUJ (field : BitVec 20) (rd : RegIdx) (op : Opcode) : Word := field ++ rd ++ op

/-- Formats I, B and S: a 12-bit field, bits 19:17 zero, rs1, the rd field, the opcode. -/
def packIBS (field : BitVec 12) (rs1 rdField : RegIdx) (op : Opcode) : Word := field ++ 0#3 ++ rs1 ++ rdField ++ op

/-- R77, under the reference readings: the assembler stores half of a branch or jump offset, puts `rs2` in the rd field
and leaves ignored bits zero. -/
def encode : Instr → Word
  | .lui rd imm => packUJ (imm.extractLsb' 12 20) rd 0x01#7
  | .auipc rd imm => packUJ (imm.extractLsb' 12 20) rd 0x02#7
  | .jal rd off => packUJ (off.extractLsb' 1 20) rd 0x03#7
  | .jalr rd rs1 imm => packIBS (imm.extractLsb' 0 12) rs1 rd 0x04#7
  | .branch rs1 rs2 off => packIBS (off.extractLsb' 1 12) rs1 rs2 0x05#7
  | .load rd rs1 imm => packIBS (imm.extractLsb' 0 12) rs1 rd 0x0E#7
  | .store rs1 rs2 imm => packIBS (imm.extractLsb' 0 12) rs1 rs2 0x10#7
  | .opImm rd rs1 imm => packIBS (imm.extractLsb' 0 12) rs1 rd 0x13#7
  | .system => 0x00000027#32

/-- The bits of an encoded word that its opcode ignores (R74), cleared: what the assembler of R77 would have written. -/
def clearIgnored (ir : Word) : Word :=
  match (opcodeOf ir).toNat with
  | 0x04 => ir &&& 0xFFF1FFFF#32
  | 0x05 => ir &&& 0xFFF1FFFF#32
  | 0x0E => ir &&& 0xFFF1FFFF#32
  | 0x10 => ir &&& 0xFFF1FFFF#32
  | 0x13 => ir &&& 0xFFF1FFFF#32
  | 0x27 => ir &&& 0x0000007F#32
  | _ => ir

end Sys2Proof
end

