-- ==== Sys2Proof/Machine/Platform.lean ====
section
/-! DEFINITION. The configuration that `State.reset` carries: the example configuration of rule R9 with the reference
readings. Only `RAM_SIZE` is the source's value; the two bases and the two Booleans are R9's choice for its test vectors
and are not the hardware's. DESIGN CHOICE, unsafe (log entry 2): no statement rests on them. -/

namespace Sys2Proof.Machine

def resetConfig : Config :=
  { ramBase := 0x80000000#32
    ramSize := 0x02000000#32
    outBase := 0x10000000#32
    loadX0Reads := true
    emitHaltDiag := false
    imms := .reference }

end Sys2Proof.Machine
end

