-- ==== Sys2Proof/Machine/State.lean ====
section
/-! DEFINITION. The state of the block (R18: "Nothing else is state"), its event trace (R34), the reasons a step can
stop, and the state at the start of a run (R36). Plain data. -/

namespace Sys2Proof.Machine

/-- The three values of `phase` (R27). -/
inductive Phase where
  | fetch
  | execute
  | halted
  deriving DecidableEq, Repr

/-- The widths of a bus access: `n` in 1, 2, 4 (R15, R55). -/
inductive Width where
  | byte
  | half
  | word
  deriving DecidableEq, Repr

/-- An event of the trace (R34): three outputs and four diagnostics. -/
inductive Event where
  /-- A write of the emit-character sub-register. -/
  | outChar (b : Byte)
  /-- A 32-bit write of the emit-signed-decimal sub-register. -/
  | outDec (v : Word)
  /-- A 32-bit write of the emit-unsigned-hex sub-register. -/
  | outHex (v : Word)
  /-- `DiagDecodeFault(op, pc)`: an unknown opcode. -/
  | diagDecodeFault (op : Opcode) (pc : Word)
  /-- `DiagBusReadFault(a)`: a bus read that faults. -/
  | diagBusReadFault (a : Word)
  /-- `DiagBusWriteFault(a)`: a bus write that faults. -/
  | diagBusWriteFault (a : Word)
  /-- `DiagHalt(pc)`: SYSTEM, only if `EMIT_HALT_DIAG`. -/
  | diagHalt (pc : Word)
  deriving DecidableEq, Repr

/-- The RAM (R38) as a list of cells, each keyed by its bus address, so that `ram[o]` is the cell at `RAM_BASE + o`
(log entry 8). -/
abbrev Memory := List Host.Cell

/-- What a byte that no cell lists reads as: "all bytes initialized to zero at creation" (R39). -/
def unlistedByte : Byte := 0#8

/-- The one canonical form: addresses strictly rising and no cell equal to what an unlisted address reads as. -/
def Memory.wf : Memory → Bool
  | [] => true
  | c :: m => (c.2 != unlistedByte) && m.all (fun d => decide (c.1 < d.1)) && Memory.wf m

/-- The state of R18, and `cfg`, the machine's parameters (R7; log entry 1), which no step writes. -/
structure State where
  /-- The parameters of R7. -/
  cfg : Config
  /-- `x[0..31]` (R19); slot 0 is kept at 0 and never read (R20, log entry 10). -/
  regs : Vector Word 32
  /-- The address of the instruction fetched or executing (R23). -/
  pc : Word
  /-- Next-PC, meaningful only during EXECUTE (R24). -/
  npc : Word
  /-- The word most recently fetched (R25). -/
  ir : Word
  /-- The halt flag (R26). -/
  halted : Bool
  /-- The phase of the cycle (R27). -/
  phase : Phase
  /-- `ram[0..RAM_SIZE-1]` (R38). -/
  ram : Memory
  /-- The event trace, oldest first (R34). -/
  trace : List Event
  deriving DecidableEq, Repr

/-- Why the machine stops. The faults of the spec (R95) are no constructor of this type: the block records them in the
trace and goes to a next state. -/
inductive Fault where
  /-- Raised by `step` alone, in phase HALTED, where "the block has no step" (R30). Safe: the model stops where the
  hardware has stopped. -/
  | halted
  deriving DecidableEq, Repr

/-- The refusals: `refuse <Reason>` of R16, and an instruction without a meaning. -/
inductive Refusal where
  /-- Raised by `exec` for an instruction that has no meaning yet. Safe. No arm of `exec` uses it. -/
  | notModelled (mnemonic : String)
  /-- Raised by a bus access of `n` bytes at `a` that starts in the RAM window and runs past its end, which the source
  calls undefined (R41, U1). Among the CPU's accesses only a fetch can. Safe. -/
  | ramWindowOverrun (a : Word) (n : Width)
  /-- Raised by a write into the output window that the source leaves unspecified (R46, U2): among the CPU's accesses
  STORE to offsets 1 to 11. Safe. -/
  | outWindowUnspecified (a : Word) (n : Width)
  deriving DecidableEq, Repr

/-- The start of a run (R36), with the configuration of `resetConfig` (log entry 2) and the empty image. `npc` and `ir`
are unspecified by R36; the model gives them 0 (DESIGN CHOICE, log entry 3). -/
def State.reset : State :=
  { cfg := resetConfig
    regs := Vector.replicate 32 0#32
    pc := resetConfig.ramBase
    npc := 0#32
    ir := 0#32
    halted := false
    phase := .fetch
    ram := []
    trace := [] }

end Sys2Proof.Machine
end

