-- ==== Sys2Proof/Machine/Flags.lean ====
section
/-! DEFINITION. The block's only flag, `halted` (R26), and what it decides. There are no condition codes, carry or
overflow (R26, R91). -/

namespace Sys2Proof.Machine

/-- `halt` sets the halt flag (R16). -/
def State.setHalted (s : State) : State := { s with halted := true }

/-- The phase after EXECUTE: HALTED if the flag is set, else FETCH (R29). -/
def phaseAfter (halted : Bool) : Phase := if halted then .halted else .fetch

end Sys2Proof.Machine
end

