-- ==== Sys2Proof/Machine/Operands.lean ====
section
/-! DEFINITION. The operand forms: reading and writing a general register (R14, R20) and the effective address of LOAD
and STORE (R88). -/

namespace Sys2Proof.Machine

/-- `x[i]`: register 0 reads as zero (R14, R20). -/
def State.readReg (s : State) (i : RegIdx) : Word :=
  if i = 0#5 then 0#32 else s.regs[i.toNat]'(i.isLt)

/-- `x[i] <- v`: a write of register 0 is discarded (R14, R20). -/
def State.writeReg (s : State) (i : RegIdx) (v : Word) : State :=
  if i = 0#5 then s else { s with regs := s.regs.set i.toNat v i.isLt }

/-- `ea = x[rs1] + offset`, modulo 2^32: the one addressing mode (R88). -/
def State.effAddr (s : State) (rs1 : RegIdx) (off : Word) : Word := s.readReg rs1 + off

end Sys2Proof.Machine
end

