-- ==== Sys2Proof/Machine/Ops.lean ====
section
/-! DEFINITION. The named operations every meaning is built from: the bytes of RAM, the trace, taking a fault, the bus
decoder and the two bus primitives (R40 to R51), and the two ends of EXECUTE (R29). -/

namespace Sys2Proof.Machine

/-! ## Bytes of RAM (R38, R42, R43) -/

/-- The byte of RAM at bus address `a`. -/
def Memory.read : Memory → Nat → Byte
  | [], _ => unlistedByte
  | c :: m, a => if c.1 = a then c.2 else Memory.read m a

/-- The RAM with the byte at bus address `a` set to `v`, in canonical form. -/
def Memory.write : Memory → Nat → Byte → Memory
  | [], a, v => if v = unlistedByte then [] else [(a, v)]
  | c :: m, a, v =>
    if a < c.1 then (if v = unlistedByte then c :: m else (a, v) :: c :: m)
    else if a = c.1 then (if v = unlistedByte then m else (a, v) :: m)
    else c :: Memory.write m a v

/-- The number of bytes of an access. -/
def Width.bytes : Width → Nat
  | .byte => 1
  | .half => 2
  | .word => 4

/-- `zext_32(ram[o+n-1] :: ... :: ram[o])`: the byte at the lowest address is the least significant (R42, R53). -/
def Memory.load (m : Memory) (a : Nat) : Width → Word
  | .byte => (Memory.read m a).setWidth 32
  | .half => (Memory.read m (a + 1) ++ Memory.read m a).setWidth 32
  | .word => wordOfBytes (Memory.read m a) (Memory.read m (a + 1)) (Memory.read m (a + 2)) (Memory.read m (a + 3))

/-- `ram[o+k] <- v[8k+7:8k]` for `k = 0 .. n-1` (R43). -/
def Memory.storeBytes (m : Memory) (a : Nat) (v : Word) : Nat → Memory
  | 0 => m
  | k + 1 => Memory.write (Memory.storeBytes m a v k) (a + k) (byteOf v k)

/-- An image copied byte for byte from address `a` on (R39). -/
def Memory.loadImage (m : Memory) (a : Nat) : List Byte → Memory
  | [] => m
  | b :: bs => Memory.loadImage (Memory.write m a b) (a + 1) bs

/-! ## The trace and the faults (R16, R34, R95) -/

/-- Appends one event to the trace. -/
def State.record (s : State) (e : Event) : State := { s with trace := s.trace ++ [e] }

/-- `emit <Out>(value)` (R16): the output side effect happens at once (R45). -/
def State.emit (s : State) (e : Event) : State := s.record e

/-- The faults of the block: "exactly three kinds" (R95, D19). -/
inductive BlockFault where
  | decodeFault (op : Opcode) (pc : Word)
  | busReadFault (a : Word)
  | busWriteFault (a : Word)
  deriving DecidableEq, Repr

/-- The diagnostic event of a fault, with the information R95 says is recorded. -/
def faultEvent : BlockFault → Event
  | .decodeFault op pc => .diagDecodeFault op pc
  | .busReadFault a => .diagBusReadFault a
  | .busWriteFault a => .diagBusWriteFault a

/-- Among faults the decode fault is the only one that halts (R95, R97). -/
def faultHalts : BlockFault → Bool
  | .decodeFault _ _ => true
  | .busReadFault _ => false
  | .busWriteFault _ => false

/-- Taking a fault, for all of them: its event is appended (R96), and the block halts if the fault is one that halts
(R97). No fault enters a trap: nothing is saved and control goes to no vector (R100). -/
def State.takeFault (s : State) (f : BlockFault) : State :=
  if faultHalts f then (s.record (faultEvent f)).setHalted else s.record (faultEvent f)

/-! ## The bus decoder (R40) -/

/-- The decoder's select (R52). -/
inductive Route where
  | ram
  | out
  | unmapped
  deriving DecidableEq, Repr

/-- `RAM_BASE <= a < RAM_BASE + RAM_SIZE`, on unbounded integers. -/
abbrev inRamWindow (c : Config) (a : Word) : Prop :=
  c.ramBase.toNat ≤ a.toNat ∧ a.toNat < c.ramBase.toNat + c.ramSize.toNat

/-- `OUT_BASE <= a < OUT_BASE + 12`, on unbounded integers. -/
abbrev inOutWindow (c : Config) (a : Word) : Prop :=
  c.outBase.toNat ≤ a.toNat ∧ a.toNat < c.outBase.toNat + outSize

/-- R40: decoded from the start address alone, the RAM window first. -/
def route (c : Config) (a : Word) : Route :=
  if inRamWindow c a then .ram else if inOutWindow c a then .out else .unmapped

/-- An access of `n` bytes that starts at `a` in the RAM window stays inside it: `o + n <= RAM_SIZE` (R41). -/
abbrev fitsRam (c : Config) (a : Word) (n : Width) : Prop :=
  a.toNat + n.bytes ≤ c.ramBase.toNat + c.ramSize.toNat

/-! ## The bus primitives (R50, R51) -/

/-- `MemRead(a, n)` (R50). -/
def memRead (s : State) (a : Word) (n : Width) : Except Refusal (Word × State) :=
  match route s.cfg a with
  | .ram => if fitsRam s.cfg a n then .ok (Memory.load s.ram a.toNat n, s) else .error (.ramWindowOverrun a n)
  | .out => .ok (0#32, s.takeFault (.busReadFault a))
  | .unmapped => .ok (0#32, s.takeFault (.busReadFault a))

/-- The output event of a write of `n` bytes of `v` at offset `off` of the output window, for the defined writes (R44);
none for the unspecified ones (R46). -/
def outEvent (off : Nat) (n : Width) (v : Word) : Option Event :=
  match off, n with
  | 0, .byte => some (.outChar (v.extractLsb' 0 8))
  | 0, .word => some (.outChar (v.extractLsb' 0 8))
  | 4, .word => some (.outDec v)
  | 8, .word => some (.outHex v)
  | _, _ => none

/-- The state with the RAM `m`. -/
def State.setRam (s : State) (m : Memory) : State := { s with ram := m }

/-- `MemWrite(a, n, v)` (R51). -/
def memWrite (s : State) (a : Word) (n : Width) (v : Word) : Except Refusal State :=
  match route s.cfg a with
  | .ram =>
    if fitsRam s.cfg a n then .ok (s.setRam (Memory.storeBytes s.ram a.toNat v n.bytes))
    else .error (.ramWindowOverrun a n)
  | .out =>
    match outEvent (a.toNat - s.cfg.outBase.toNat) n v with
    | some e => .ok (s.emit e)
    | none => .error (.outWindowUnspecified a n)
  | .unmapped => .ok (s.takeFault (.busWriteFault a))

/-! ## The two ends of EXECUTE (R29) -/

/-- `npc <- t` (R16). -/
def State.setNpc (s : State) (t : Word) : State := { s with npc := t }

/-- `npc <- pc + 4`, the default every meaning starts from (R24, R29). -/
def State.beginExecute (s : State) : State := s.setNpc (s.pc + 4#32)

/-- The end of EXECUTE (R29): `pc <- npc`, `x[0] <- 0`, and the phase. -/
def State.endExecute (s : State) : State :=
  { s with pc := s.npc, regs := s.regs.set 0 0#32, phase := phaseAfter s.halted }

end Sys2Proof.Machine
end

