-- ==== Sys2Proof/Machine/Arithmetic.lean ====
section
/-! DEFINITION. OP_IMM (R91, R92): 32-bit addition modulo 2^32, no flags. -/

namespace Sys2Proof.Machine

/-- OP_IMM: `x[rd] <- x[rs1] + imm_i` (R92). -/
def execOpImm (rd rs1 : RegIdx) (imm : Word) (s : State) : Host.Outcome State Fault Refusal :=
  .next (s.beginExecute.writeReg rd (s.readReg rs1 + imm)).endExecute

end Sys2Proof.Machine
end

