-- ==== Sys2Proof/Machine/ControlTransfer.lean ====
section
/-! DEFINITION. JAL, JALR and BRANCH (R81 to R87). Source registers are read in the state EXECUTE began with (R17). -/

namespace Sys2Proof.Machine

/-- `npc <- target` and `x[rd] <- pc + 4`: the common effect of JAL and JALR. -/
def State.jumpAndLink (s : State) (rd : RegIdx) (target : Word) : State :=
  ((s.beginExecute.setNpc target).writeReg rd (s.pc + 4#32)).endExecute

/-- JAL: `npc <- pc + imm_j`, `x[rd] <- pc + 4` (R85). -/
def execJal (rd : RegIdx) (off : Word) (s : State) : Host.Outcome State Fault Refusal :=
  .next (s.jumpAndLink rd (s.pc + off))

/-- JALR: `npc <- (x[rs1] + imm_i) & ~1` from the old `x[rs1]`, `x[rd] <- pc + 4` (R86). -/
def execJalr (rd rs1 : RegIdx) (imm : Word) (s : State) : Host.Outcome State Fault Refusal :=
  .next (s.jumpAndLink rd (s.effAddr rs1 imm &&& ~~~1#32))

/-- BRANCH: `npc <- pc + imm_b` if `x[rs1] == x[rs2]`, else the default (R87). -/
def execBranch (rs1 rs2 : RegIdx) (off : Word) (s : State) : Host.Outcome State Fault Refusal :=
  .next (if s.readReg rs1 = s.readReg rs2 then (s.beginExecute.setNpc (s.pc + off)).endExecute
    else s.beginExecute.endExecute)

end Sys2Proof.Machine
end

