-- ==== Sys2Proof/Machine/LoadStore.lean ====
section
/-! DEFINITION. LOAD and STORE (R88 to R90): one bus access of one byte each. -/

namespace Sys2Proof.Machine

/-- LOAD: `x[rd] <- zext_32(b[7:0])` for `b = MemRead(ea, 1)`; with rd = 0 the read happens only if `LOAD_X0_READS`
(R89, D17). -/
def execLoad (rd rs1 : RegIdx) (imm : Word) (s : State) : Host.Outcome State Fault Refusal :=
  if rd ≠ 0#5 ∨ s.cfg.loadX0Reads = true then
    match memRead s.beginExecute (s.effAddr rs1 imm) .byte with
    | .ok (b, s') => .next (s'.writeReg rd ((b.extractLsb' 0 8).setWidth 32)).endExecute
    | .error r => .refused r
  else .next s.beginExecute.endExecute

/-- STORE: `MemWrite(ea, 1, zext_32(x[rs2][7:0]))` (R90). -/
def execStore (rs1 rs2 : RegIdx) (imm : Word) (s : State) : Host.Outcome State Fault Refusal :=
  match memWrite s.beginExecute (s.effAddr rs1 imm) .byte (((s.readReg rs2).extractLsb' 0 8).setWidth 32) with
  | .ok s' => .next s'.endExecute
  | .error r => .refused r

end Sys2Proof.Machine
end

