-- ==== Sys2Proof/Machine/System.lean ====
section
/-! DEFINITION. SYSTEM (R93) and the unknown-opcode path (R94): the only two ways the block halts (R26). -/

namespace Sys2Proof.Machine

/-- The optional halt diagnostic of SYSTEM (R93, D11). -/
def State.haltDiag (s : State) : State := if s.cfg.emitHaltDiag then s.record (.diagHalt s.pc) else s

/-- SYSTEM: `halt`, `npc <- pc`, and the diagnostic if `EMIT_HALT_DIAG` (R93). -/
def execSystem (s : State) : Host.Outcome State Fault Refusal :=
  .next (s.beginExecute.setHalted.setNpc s.pc).haltDiag.endExecute

/-- An unknown opcode: `raise DecodeFault(ir[6:0], pc)` and `halt`; npc keeps `pc + 4` (R94). -/
def execUnknown (op : Opcode) (s : State) : Host.Outcome State Fault Refusal :=
  .next (s.beginExecute.takeFault (.decodeFault op s.pc)).endExecute

end Sys2Proof.Machine
end

