-- ==== Sys2Proof/Machine/UpperImmediate.lean ====
section
/-! DEFINITION. LUI and AUIPC (R79, R80). Each meaning is the whole of EXECUTE for its instruction (R29). -/

namespace Sys2Proof.Machine

/-- LUI: `x[rd] <- imm_u` (R79). -/
def execLui (rd : RegIdx) (imm : Word) (s : State) : Host.Outcome State Fault Refusal :=
  .next (s.beginExecute.writeReg rd imm).endExecute

/-- AUIPC: `x[rd] <- pc + imm_u`, with the pc of this instruction (R80). -/
def execAuipc (rd : RegIdx) (imm : Word) (s : State) : Host.Outcome State Fault Refusal :=
  .next (s.beginExecute.writeReg rd (s.pc + imm)).endExecute

end Sys2Proof.Machine
end

