-- ==== Sys2Proof/Machine/Cycle.lean ====
section
/-! DEFINITION. The cycle (R27 to R31): FETCH, EXECUTE and HALTED, and the placing of a word where the next fetch reads
it. -/

namespace Sys2Proof.Machine

/-- `ir <- w`, `phase <- EXECUTE`: the end of FETCH (R28). -/
def State.latchIr (s : State) (w : Word) : State := { s with ir := w, phase := .execute }

/-- Phase FETCH: one 32-bit bus read at `pc` (R28). -/
def fetch (s : State) : Except Refusal State :=
  match memRead s s.pc .word with
  | .ok (w, s') => .ok (s'.latchIr w)
  | .error r => .error r

/-- Phase EXECUTE: decode `ir` and perform its effect (R29). -/
def execute (s : State) : Host.Outcome State Fault Refusal :=
  match decode s.cfg.imms s.ir with
  | .known i => exec i s
  | .unknown op => execUnknown op s

/-- One step: FETCH fused with the EXECUTE after it (R31); from phase EXECUTE, the EXECUTE alone; in phase HALTED there
is no step (R30; log entries 5 and 6). -/
def cycle (s : State) : Host.Outcome State Fault Refusal :=
  match s.phase with
  | .fetch =>
    match fetch s with
    | .ok s' => execute s'
    | .error r => .refused r
  | .execute => execute s
  | .halted => .fault .halted

/-- One byte of RAM written from outside the machine, if its address is in the RAM window. -/
def pokeByte (c : Config) (m : Memory) (a : Nat) (b : Byte) : Memory :=
  if c.ramBase.toNat ≤ a ∧ a < c.ramBase.toNat + c.ramSize.toNat then Memory.write m a b else m

/-- The word `w` stored little-endian at `pc`, with the phase FETCH, so that the next step fetches it (log entry 9). -/
def State.placeAtPc (s : State) (w : Word) : State :=
  let a := s.pc.toNat
  { s with
    phase := .fetch
    ram := pokeByte s.cfg (pokeByte s.cfg (pokeByte s.cfg (pokeByte s.cfg s.ram a (byteOf w 0)) (a + 1) (byteOf w 1))
      (a + 2) (byteOf w 2)) (a + 3) (byteOf w 3) }

end Sys2Proof.Machine
end

