-- ==== Sys2Proof/Machine/Step.lean ====
section
/-! DEFINITION. The step of the machine and the host's way to place one instruction; both only call Machine/Cycle.lean. -/

namespace Sys2Proof.Machine

/-- One step of the block (R27 to R31). -/
def step (s : State) : Host.Outcome State Fault Refusal := cycle s

/-- `s` with the instruction whose bits are `w` (a table row of `nbits` bits) where `step` fetches next. -/
def State.withFetchWord (s : State) (nbits w : Nat) : State := s.placeAtPc (tableWord nbits w)

end Sys2Proof.Machine
end

