-- ==== Sys2Proof/Machine/Boot.lean ====
section
/-! DEFINITION. The start of a run for any configuration and any program image (R36, R39, R108), and what the host sees
when a run has ended (R113). -/

namespace Sys2Proof.Machine

/-- The state the host has seeded: zeroed RAM, the image copied to the start of the RAM window (image bytes beyond
`RAM_SIZE` are not loaded), `pc = RAM_BASE`, and every other field as in `State.reset`. -/
def State.boot (c : Config) (image : List Byte) : State :=
  { State.reset with
    cfg := c
    pc := c.ramBase
    ram := Memory.loadImage [] c.ramBase.toNat (image.take c.ramSize.toNat) }

/-- A run has ended: `halted = true` and `phase = HALTED` (R113). -/
abbrev State.ended (s : State) : Prop := s.halted = true ∧ s.phase = .halted

/-- What the host observes of a final state: `x[0..31]`, `pc`, `ram` and `trace` (R113). -/
structure Observation where
  regs : Vector Word 32
  pc : Word
  ram : Memory
  trace : List Event
  deriving DecidableEq, Repr

def State.observe (s : State) : Observation :=
  { regs := Vector.ofFn (fun i : Fin 32 => s.readReg (BitVec.ofFin i)), pc := s.pc, ram := s.ram, trace := s.trace }

end Sys2Proof.Machine
end

