-- ==== Sys2Proof/Machine/Ports.lean ====
section
/-! DEFINITION. The interfaces the spec gives the sub-blocks: the ports of the register file (R22) and a bus transaction
(R52). They are readings of the operations the meanings use (decision D12 of the spec), not further behaviour. -/

namespace Sys2Proof.Machine

/-- The data of read ports A (rs1) and B (the rd field), for the word in `ir` (R22). -/
structure ReadPorts where
  qa : Word
  qb : Word
  deriving DecidableEq, Repr

def readPorts (s : State) : ReadPorts := { qa := s.readReg (rs1Of s.ir), qb := s.readReg (rdOf s.ir) }

/-- The write port with index `wa`, data `wd` and enable `we` (R22). -/
def writePort (s : State) (wa : RegIdx) (wd : Word) (we : Bool) : State := if we then s.writeReg wa wd else s

/-- A request from the CPU (R52). -/
structure BusRequest where
  addr : Word
  size : Width
  write : Bool
  wdata : Word
  deriving DecidableEq, Repr

/-- One bus transaction: the response's `rdata`, valid on a read, and the state with the transaction's events recorded
(R52). -/
def transact (s : State) (q : BusRequest) : Except Refusal (Option Word × State) :=
  if q.write then
    match memWrite s q.addr q.size q.wdata with
    | .ok s' => .ok (none, s')
    | .error r => .error r
  else
    match memRead s q.addr q.size with
    | .ok (v, s') => .ok (some v, s')
    | .error r => .error r

end Sys2Proof.Machine
end

