-- ==== Sys2Proof/Machine/Pseudo.lean ====
section
/-! DEFINITION. The pseudo-instructions of the spec's assembler and their expansions (R78, decision D15 of the spec). -/

namespace Sys2Proof.Machine

inductive Pseudo where
  | nop
  | mv (rd rs : RegIdx)
  | li (rd : RegIdx) (v : Word)
  | j (off : Word)
  | ret
  deriving DecidableEq, Repr

/-- The upper immediate of `li`: `((v + 0x800) >> 12) & 0xFFFFF` in bits 31:12. -/
def liUpper (v : Word) : Word := (v + 0x800#32).extractLsb' 12 20 ++ 0#12

/-- The low immediate of `li`: `sext_12(v[11:0])`. -/
def liLower (v : Word) : Word := (v.extractLsb' 0 12).signExtend 32

/-- Each pseudo-instruction "expands exactly as shown" (R78). DESIGN CHOICE (log entry 23): R78 does not say whether its test
`-2048 <= v <= 2047` of `li` reads a literal from `0xFFFFF800` to `0xFFFFFFFF` as the unsigned number it writes (then two
instructions) or as the signed value of its 32 bits (then one `addi`). The operand here is the 32-bit value, read signed. -/
def Pseudo.expand : Pseudo → List Instr
  | .nop => [.opImm 0#5 0#5 0#32]
  | .mv rd rs => [.opImm rd rs 0#32]
  | .li rd v =>
    if imm12Ok v then [.opImm rd 0#5 v]
    else if v.extractLsb' 0 12 = 0#12 then [.lui rd (liUpper v)]
    else [.lui rd (liUpper v), .opImm rd rd (liLower v)]
  | .j off => [.jal 0#5 off]
  | .ret => [.jalr 0#5 1#5 0#32]

/-- The instructions of a list executed one after the other; the first that gives no next state ends it. -/
def execAll : List Instr → State → Host.Outcome State Fault Refusal
  | [], s => .next s
  | i :: is, s =>
    match exec i s with
    | .next t => execAll is t
    | .fault f => .fault f
    | .refused r => .refused r

end Sys2Proof.Machine
end

