-- ==== Sys2Proof/Machine/Render.lean ====
section
/-! DEFINITION. The text of the two streams (R34, R44; decision D9 of the spec). Output events are rendered as D9 says;
the text of a diagnostic is left open by the source (U7). Nothing the block does depends on this file (R96). -/

namespace Sys2Proof

/-- The text of a diagnostic event: any value (U7). -/
opaque Config.diagText : Machine.Event → List Char

end Sys2Proof

namespace Sys2Proof.Machine

/-- The digits of `n` in base `b`, most significant first, with no leading zeros (`0` for zero), for `n < b ^ fuel`. -/
def digits (b : Nat) : Nat → Nat → List Nat
  | 0, _ => []
  | fuel + 1, n => if n < b then [n] else digits b fuel (n / b) ++ [n % b]

/-- `OutDec(v)`: the value formatted as a signed integer (R44): `-` if negative, then the decimal digits of its absolute
value (D9). Ten digits hold every magnitude up to 2^31. -/
def renderDec (v : Word) : List Char :=
  (if v.toInt < 0 then ['-'] else []) ++ (digits 10 10 v.toInt.natAbs).map Nat.digitChar

/-- `OutHex(v)`: lowercase hex, no leading zeros, no prefix (R44, D9). -/
def renderHex (v : Word) : List Char := (digits 16 8 v.toNat).map Nat.digitChar

/-- The text an event adds to the standard output stream; diagnostics add nothing to it (R34). -/
def outputText : Event → List Char
  | .outChar b => [Char.ofNat b.toNat]
  | .outDec v => renderDec v
  | .outHex v => renderHex v
  | .diagDecodeFault _ _ => []
  | .diagBusReadFault _ => []
  | .diagBusWriteFault _ => []
  | .diagHalt _ => []

/-- The text an event adds to the separate error stream; output events add nothing to it (R34). -/
def errorText : Event → List Char
  | .outChar _ => []
  | .outDec _ => []
  | .outHex _ => []
  | .diagDecodeFault op pc => Config.diagText (.diagDecodeFault op pc)
  | .diagBusReadFault a => Config.diagText (.diagBusReadFault a)
  | .diagBusWriteFault a => Config.diagText (.diagBusWriteFault a)
  | .diagHalt pc => Config.diagText (.diagHalt pc)

/-- The standard output stream of a trace: the texts of its events in order, nothing between them (D9). -/
def outputStream (t : List Event) : List Char := t.flatMap outputText

/-- The error stream of a trace. -/
def errorStream (t : List Event) : List Char := t.flatMap errorText

end Sys2Proof.Machine
end

