-- ==== Sys2Proof/Safety.lean ====
section
/-! DEFINITION. The terms statements are made in: the invariant of the machine, what an instruction leaves unchanged, and
the word a step executes. -/

namespace Sys2Proof.Machine

/-- Every listed cell lies in the RAM window: the RAM has `RAM_SIZE` bytes and no more (R38). -/
abbrev ramInWindow (s : State) : Prop :=
  ∀ c ∈ s.ram, s.cfg.ramBase.toNat ≤ c.1 ∧ c.1 < s.cfg.ramBase.toNat + s.cfg.ramSize.toNat

/-- The invariant of the machine: the parameters meet R8, the RAM is in canonical form and inside its window, slot 0 of
the register file is zero (R20), and the phase is HALTED exactly when the halt flag is set (R29). -/
abbrev State.Inv (s : State) : Prop :=
  s.cfg.valid ∧ Memory.wf s.ram = true ∧ ramInWindow s ∧ s.regs[0] = 0#32 ∧ (s.halted = true ↔ s.phase = .halted)

/-- `t` comes after `s` at the end of an EXECUTE that selected `next` as next-PC and did not touch the halt flag: pc and
npc hold `next`, the phase follows the flag, `x[0]` is re-enforced, `ir` and the parameters are unchanged (R29). -/
structure EndsAt (s t : State) (next : Word) : Prop where
  pc : t.pc = next
  npc : t.npc = next
  halted : t.halted = s.halted
  phase : t.phase = phaseAfter s.halted
  slot0 : t.regs[0] = 0#32
  ir : t.ir = s.ir
  cfg : t.cfg = s.cfg

/-- Every byte of RAM is unchanged, and so is the RAM as data. -/
structure RamUnchanged (s t : State) : Prop where
  bytes : ∀ a, Memory.read t.ram a = Memory.read s.ram a
  data : t.ram = s.ram

/-- Every register but `rd` reads as before. -/
def RegsUnchangedBut (s t : State) (rd : RegIdx) : Prop := ∀ r, r ≠ rd → t.readReg r = s.readReg r

/-- Every register reads as before. -/
def RegsUnchanged (s t : State) : Prop := ∀ r, t.readReg r = s.readReg r

/-- What a write of `v` to register `rd` leaves there: `v`, or zero for register 0, which discards it (R20). -/
def RegHolds (t : State) (rd : RegIdx) (v : Word) : Prop := t.readReg rd = if rd = 0#5 then 0#32 else v

/-- The next step of `s` executes the word `w`: `s` is in phase FETCH with `w` in RAM at pc, or in phase EXECUTE with `w`
in `ir` (R28, R29). -/
def AboutToExecute (s : State) (w : Word) : Prop :=
  (s.phase = .fetch ∧ inRamWindow s.cfg s.pc ∧ fitsRam s.cfg s.pc .word ∧ w = Memory.load s.ram s.pc.toNat .word) ∨
    (s.phase = .execute ∧ w = s.ir)

end Sys2Proof.Machine
end

