-- ==== Sys2Proof/Certificates/Slice0/Obligations.lean ====
section
/-! DEFINITION. The statements for the provers. Each says of the model what a rule of spec/ says of the block; a statement
holds for every state and every value of the parameters (`s.cfg`) unless it names a condition.

Two readings run through all of them. A sum of 32-bit values is modulo 2^32: R13 and R81 say so, by the spec's own
decision D4 (log entry 11). A statement that names `ImmReadings.reference` names the reference value of STORE_IMM (U3)
and JAL_IMM (U4). -/

open Sys2Proof Sys2Proof.Machine

/-! ## The instructions -/

/-- R79: the encoding of LUI, `x[rd] <- imm_u`, and that nothing else changes but pc, npc and the phase. -/
def Obligations.LuiLoadsUpperImmediate : Prop :=
  (∀ (r : ImmReadings) (w : Word), w.extractLsb' 0 7 = 0x01#7 →
    decode r w = .known (.lui (w.extractLsb' 7 5) (w.extractLsb' 12 20 ++ 0#12))) ∧
  ∀ (rd : RegIdx) (imm : Word) (s : State), ∃ t, exec (.lui rd imm) s = .next t ∧
    RegHolds t rd imm ∧ RegsUnchangedBut s t rd ∧ EndsAt s t (s.pc + 4#32) ∧ RamUnchanged s t ∧ t.trace = s.trace

/-- R80: the encoding of AUIPC and `x[rd] <- pc + imm_u` with the pc of this instruction; the wrap of the sum is D4. -/
def Obligations.AuipcAddsToCurrentPc : Prop :=
  (∀ (r : ImmReadings) (w : Word), w.extractLsb' 0 7 = 0x02#7 →
    decode r w = .known (.auipc (w.extractLsb' 7 5) (w.extractLsb' 12 20 ++ 0#12))) ∧
  ∀ (rd : RegIdx) (imm : Word) (s : State), ∃ t, exec (.auipc rd imm) s = .next t ∧
    RegHolds t rd (s.pc + imm) ∧ RegsUnchangedBut s t rd ∧ EndsAt s t (s.pc + 4#32) ∧ RamUnchanged s t ∧
    t.trace = s.trace

/-- R85: the encoding of JAL under the reference value of JAL_IMM (U4), the jump and the link. -/
def Obligations.JalJumpsAndLinks : Prop :=
  (∀ w : Word, w.extractLsb' 0 7 = 0x03#7 →
    decode .reference w = .known (.jal (w.extractLsb' 7 5) ((w.extractLsb' 12 20).signExtend 32 <<< 1))) ∧
  ∀ (rd : RegIdx) (off : Word) (s : State), ∃ t, exec (.jal rd off) s = .next t ∧
    RegHolds t rd (s.pc + 4#32) ∧ RegsUnchangedBut s t rd ∧ EndsAt s t (s.pc + off) ∧ RamUnchanged s t ∧
    t.trace = s.trace

/-- R86: the encoding of JALR, the target with bit 0 forced to 0 from the old `x[rs1]` (also with rd = rs1, where R86
cites D5), and the link. -/
def Obligations.JalrJumpsToRegisterAndLinks : Prop :=
  (∀ (r : ImmReadings) (w : Word), w.extractLsb' 0 7 = 0x04#7 →
    decode r w = .known (.jalr (w.extractLsb' 7 5) (w.extractLsb' 12 5) ((w.extractLsb' 20 12).signExtend 32))) ∧
  ∀ (rd rs1 : RegIdx) (imm : Word) (s : State), ∃ t, exec (.jalr rd rs1 imm) s = .next t ∧
    RegHolds t rd (s.pc + 4#32) ∧ RegsUnchangedBut s t rd ∧ EndsAt s t ((s.readReg rs1 + imm) &&& ~~~1#32) ∧
    RamUnchanged s t ∧ t.trace = s.trace

/-- R87: the encoding of BRANCH, its second source in the rd field, and the two values of npc. No register is written. -/
def Obligations.BranchTakenOnEquality : Prop :=
  (∀ (r : ImmReadings) (w : Word), w.extractLsb' 0 7 = 0x05#7 →
    decode r w =
      .known (.branch (w.extractLsb' 12 5) (w.extractLsb' 7 5) ((w.extractLsb' 20 12).signExtend 32 <<< 1))) ∧
  ∀ (rs1 rs2 : RegIdx) (off : Word) (s : State), ∃ t, exec (.branch rs1 rs2 off) s = .next t ∧
    EndsAt s t (if s.readReg rs1 = s.readReg rs2 then s.pc + off else s.pc + 4#32) ∧
    RegsUnchanged s t ∧ RamUnchanged s t ∧ t.trace = s.trace

/-- The encoding of LOAD, the byte from RAM zero-extended, and the read fault outside RAM that returns 0 and goes on. The
fault in the output window is the spec's decision D7; whether rd = 0 reads at all is the open parameter (D17). -/
def Obligations.LoadReadsByteOrFaults : Prop :=
  (∀ (r : ImmReadings) (w : Word), w.extractLsb' 0 7 = 0x0E#7 →
    decode r w = .known (.load (w.extractLsb' 7 5) (w.extractLsb' 12 5) ((w.extractLsb' 20 12).signExtend 32))) ∧
  ∀ (rd rs1 : RegIdx) (imm : Word) (s : State), ∃ t, exec (.load rd rs1 imm) s = .next t ∧
    RegsUnchangedBut s t rd ∧ EndsAt s t (s.pc + 4#32) ∧ RamUnchanged s t ∧
    (inRamWindow s.cfg (s.readReg rs1 + imm) →
      RegHolds t rd ((Memory.read s.ram (s.readReg rs1 + imm).toNat).setWidth 32) ∧ t.trace = s.trace) ∧
    (¬inRamWindow s.cfg (s.readReg rs1 + imm) → (rd ≠ 0#5 ∨ s.cfg.loadX0Reads = true) →
      RegHolds t rd 0#32 ∧ t.trace = s.trace ++ [.diagBusReadFault (s.readReg rs1 + imm)]) ∧
    (rd = 0#5 → s.cfg.loadX0Reads = false → t.trace = s.trace)

/-- The encoding of STORE under the reference value of STORE_IMM (U3), and its effect wherever the spec gives one: one
byte of RAM, a character, or a write fault. The only byte of RAM that may change is the one at the effective address. -/
def Obligations.StoreWritesByteOrEmitsOrFaults : Prop :=
  (∀ w : Word, w.extractLsb' 0 7 = 0x10#7 →
    decode .reference w =
      .known (.store (w.extractLsb' 12 5) (w.extractLsb' 7 5) ((w.extractLsb' 20 12).signExtend 32))) ∧
  ∀ (rs1 rs2 : RegIdx) (imm : Word) (s : State),
    (inOutWindow s.cfg (s.readReg rs1 + imm) →
      inRamWindow s.cfg (s.readReg rs1 + imm) ∨ s.readReg rs1 + imm = s.cfg.outBase) →
    ∃ t, exec (.store rs1 rs2 imm) s = .next t ∧ RegsUnchanged s t ∧ EndsAt s t (s.pc + 4#32) ∧
      (∀ a, a ≠ (s.readReg rs1 + imm).toNat → Memory.read t.ram a = Memory.read s.ram a) ∧
      (inRamWindow s.cfg (s.readReg rs1 + imm) → t.trace = s.trace ∧ (Memory.wf s.ram = true →
        Memory.read t.ram (s.readReg rs1 + imm).toNat = (s.readReg rs2).extractLsb' 0 8)) ∧
      (¬inRamWindow s.cfg (s.readReg rs1 + imm) → RamUnchanged s t ∧
        t.trace = s.trace ++ [if inOutWindow s.cfg (s.readReg rs1 + imm)
          then .outChar ((s.readReg rs2).extractLsb' 0 8) else .diagBusWriteFault (s.readReg rs1 + imm)])

/-- STORE to offsets 1 to 11 of the output window is refused: the treatment R46 gives what the source leaves unspecified
(U2). -/
def Obligations.StoreToUndefinedWindowOffsetRefused : Prop :=
  ∀ (rs1 rs2 : RegIdx) (imm : Word) (s : State), ¬inRamWindow s.cfg (s.readReg rs1 + imm) →
    s.cfg.outBase.toNat + 1 ≤ (s.readReg rs1 + imm).toNat →
    (s.readReg rs1 + imm).toNat ≤ s.cfg.outBase.toNat + 11 →
    exec (.store rs1 rs2 imm) s = .refused (.outWindowUnspecified (s.readReg rs1 + imm) .byte)

/-- R92: the encoding of OP_IMM and `x[rd] <- x[rs1] + imm_i` modulo 2^32. -/
def Obligations.OpImmAddsImmediate : Prop :=
  (∀ (r : ImmReadings) (w : Word), w.extractLsb' 0 7 = 0x13#7 →
    decode r w = .known (.opImm (w.extractLsb' 7 5) (w.extractLsb' 12 5) ((w.extractLsb' 20 12).signExtend 32))) ∧
  ∀ (rd rs1 : RegIdx) (imm : Word) (s : State), ∃ t, exec (.opImm rd rs1 imm) s = .next t ∧
    RegHolds t rd (s.readReg rs1 + imm) ∧ RegsUnchangedBut s t rd ∧ EndsAt s t (s.pc + 4#32) ∧ RamUnchanged s t ∧
    t.trace = s.trace

/-- R93: every word with opcode 0x27 is SYSTEM; it halts, pc keeps its own address, and the diagnostic is recorded
exactly if `EMIT_HALT_DIAG`. -/
def Obligations.SystemHaltsAtItsOwnAddress : Prop :=
  (∀ (r : ImmReadings) (w : Word), w.extractLsb' 0 7 = 0x27#7 → decode r w = .known .system) ∧
  ∀ s : State, ∃ t, exec .system s = .next t ∧ t.halted = true ∧ t.phase = .halted ∧ t.pc = s.pc ∧ t.npc = s.pc ∧
    RegsUnchanged s t ∧ t.regs[0] = 0#32 ∧ RamUnchanged s t ∧ t.ir = s.ir ∧ t.cfg = s.cfg ∧
    t.trace = s.trace ++ (if s.cfg.emitHaltDiag then [.diagHalt s.pc] else [])

/-- R94: EXECUTE of a word whose opcode is none of the nine records the decode fault with opcode and pc and halts, with
pc + 4 (D21) and every register and byte unchanged. -/
def Obligations.UnknownOpcodeReportsAndHalts : Prop :=
  ∀ s : State, s.phase = .execute → s.ir.extractLsb' 0 7 ∉ definedOpcodes →
    ∃ t, step s = .next t ∧ t.trace = s.trace ++ [.diagDecodeFault (s.ir.extractLsb' 0 7) s.pc] ∧
      t.halted = true ∧ t.phase = .halted ∧ t.pc = s.pc + 4#32 ∧ t.npc = s.pc + 4#32 ∧ RegsUnchanged s t ∧
      t.regs[0] = 0#32 ∧ RamUnchanged s t ∧ t.ir = s.ir ∧ t.cfg = s.cfg

/-! ## Encoding -/

/-- Words written out in the spec decode to the instructions they are listed as. -/
def Obligations.SpecWordsDecode : Prop :=
  decode .reference 0x1000_0081#32 = .known (.lui 1#5 0x1000_0000#32) ∧
  decode .reference 0x0000_1102#32 = .known (.auipc 2#5 0x1000#32) ∧
  decode .reference 0xFFFF_C003#32 = .known (.jal 0#5 (-8)) ∧
  decode .reference 0xFFF0_6284#32 = .known (.jalr 5#5 6#5 (-1)) ∧
  decode .reference 0x8000_1105#32 = .known (.branch 1#5 2#5 (-4096)) ∧
  decode .reference 0xFFF0_218E#32 = .known (.load 3#5 2#5 (-1)) ∧
  decode .reference 0x0040_2090#32 = .known (.store 2#5 1#5 4#32) ∧
  decode .reference 0xFFB0_5293#32 = .known (.opImm 5#5 5#5 (-5)) ∧
  decode .reference 0xFFFF_FFA7#32 = .known .system ∧
  decode .reference 0x0000_0073#32 = .unknown 0x73#7

/-- R73: the opcode field alone selects the instruction, by the table of nine values; any other value is unknown. -/
def Obligations.OpcodeFieldSelectsInstruction : Prop :=
  ∀ (r : ImmReadings) (w : Word),
    (w.extractLsb' 0 7 = 0x01#7 ↔ ∃ rd imm, decode r w = .known (.lui rd imm)) ∧
    (w.extractLsb' 0 7 = 0x02#7 ↔ ∃ rd imm, decode r w = .known (.auipc rd imm)) ∧
    (w.extractLsb' 0 7 = 0x03#7 ↔ ∃ rd off, decode r w = .known (.jal rd off)) ∧
    (w.extractLsb' 0 7 = 0x04#7 ↔ ∃ rd rs1 imm, decode r w = .known (.jalr rd rs1 imm)) ∧
    (w.extractLsb' 0 7 = 0x05#7 ↔ ∃ rs1 rs2 off, decode r w = .known (.branch rs1 rs2 off)) ∧
    (w.extractLsb' 0 7 = 0x0E#7 ↔ ∃ rd rs1 imm, decode r w = .known (.load rd rs1 imm)) ∧
    (w.extractLsb' 0 7 = 0x10#7 ↔ ∃ rs1 rs2 imm, decode r w = .known (.store rs1 rs2 imm)) ∧
    (w.extractLsb' 0 7 = 0x13#7 ↔ ∃ rd rs1 imm, decode r w = .known (.opImm rd rs1 imm)) ∧
    (w.extractLsb' 0 7 = 0x27#7 ↔ decode r w = .known .system) ∧
    (w.extractLsb' 0 7 ∉ [0x01#7, 0x02#7, 0x03#7, 0x04#7, 0x05#7, 0x0E#7, 0x10#7, 0x13#7, 0x27#7] ↔
      decode r w = .unknown (w.extractLsb' 0 7))

/-- Bits 19:17 of JALR, BRANCH, LOAD, STORE and OP_IMM and bits 31:7 of SYSTEM do not matter; LUI, AUIPC and JAL have no
ignored bits. The spec's decision D20 (log entry 15). -/
def Obligations.IgnoredBitsDoNotMatter : Prop :=
  (∀ w w' : Word, w.extractLsb' 0 7 ∈ [0x04#7, 0x05#7, 0x0E#7, 0x10#7, 0x13#7] →
    w.extractLsb' 0 17 = w'.extractLsb' 0 17 → w.extractLsb' 20 12 = w'.extractLsb' 20 12 →
    decode .reference w = decode .reference w') ∧
  (∀ (r : ImmReadings) (w w' : Word), w.extractLsb' 0 7 = 0x27#7 → w'.extractLsb' 0 7 = 0x27#7 →
    decode r w = decode r w') ∧
  (∀ w w' : Word, w.extractLsb' 0 7 ∈ [0x01#7, 0x02#7, 0x03#7] →
    decode .reference w = decode .reference w' → w = w')

/-- R68 to R72: the value of each immediate as a number, its range, and that every multiple of 4096 is some LUI
immediate. The offsets of JAL and STORE are those of the reference readings (U4, U3). -/
def Obligations.ImmediateValuesAndRanges : Prop :=
  (∀ w : Word,
    (immU w).toNat = 4096 * (w.extractLsb' 12 20).toNat ∧
    (jalOffset .reference w).toInt = 2 * (w.extractLsb' 12 20).toInt ∧
    (immI w).toInt = (w.extractLsb' 20 12).toInt ∧
    (immB w).toInt = 2 * (w.extractLsb' 20 12).toInt ∧
    (storeOffset .reference w).toInt = (w.extractLsb' 20 12).toInt ∧
    -(2 ^ 20) ≤ (jalOffset .reference w).toInt ∧ (jalOffset .reference w).toInt ≤ 2 ^ 20 - 2 ∧
    -2048 ≤ (immI w).toInt ∧ (immI w).toInt ≤ 2047 ∧
    -4096 ≤ (immB w).toInt ∧ (immB w).toInt ≤ 4094 ∧
    -2048 ≤ (storeOffset .reference w).toInt ∧ (storeOffset .reference w).toInt ≤ 2047) ∧
  ∀ v : Word, v.toNat % 4096 = 0 → ∃ w : Word, immU w = v

/-- Decoding an encoded instruction gives it back, for every well-formed instruction and every operand value. -/
def Obligations.DecodeOfEncodeIsIdentity : Prop :=
  ∀ i : Instr, i.wellFormed = true → decode .reference (encode i) = .known i

/-- Every decoded instruction is well formed, and encoding it gives the word back with its ignored bits cleared. -/
def Obligations.EncodeOfDecodeIsCanonicalWord : Prop :=
  ∀ (w : Word) (i : Instr), decode .reference w = .known i → i.wellFormed = true ∧ encode i = clearIgnored w

/-! ## The bus -/

/-- The bus decoder: the RAM window first, then the output window, else unmapped, by the start address alone (the spec's
decision D6, log entry 13), on unbounded integers; where the windows overlap the RAM wins. -/
def Obligations.BusDecodesInOrder : Prop :=
  ∀ (c : Config) (a : Word),
    (route c a = .ram ↔ c.ramBase.toNat ≤ a.toNat ∧ a.toNat < c.ramBase.toNat + c.ramSize.toNat) ∧
    (route c a = .out ↔ ¬(c.ramBase.toNat ≤ a.toNat ∧ a.toNat < c.ramBase.toNat + c.ramSize.toNat) ∧
      c.outBase.toNat ≤ a.toNat ∧ a.toNat < c.outBase.toNat + 12) ∧
    (route c a = .unmapped ↔ ¬(c.ramBase.toNat ≤ a.toNat ∧ a.toNat < c.ramBase.toNat + c.ramSize.toNat) ∧
      ¬(c.outBase.toNat ≤ a.toNat ∧ a.toNat < c.outBase.toNat + 12))

/-- R42: a RAM read of n bytes, aligned or not, changes no state; the byte at the lowest address is the least significant,
and the value is zero above its n bytes. -/
def Obligations.RamReadIsLittleEndian : Prop :=
  ∀ (s : State) (a : Word) (n : Width), inRamWindow s.cfg a → fitsRam s.cfg a n →
    ∃ v, memRead s a n = .ok (v, s) ∧ ∀ k, k < 4 →
      v.extractLsb' (8 * k) 8 = if k < n.bytes then Memory.read s.ram (a.toNat + k) else 0#8

/-- R43: a RAM write of n bytes sets exactly those bytes, each to its byte of the value, and nothing else. -/
def Obligations.RamWriteSetsItsBytesOnly : Prop :=
  ∀ (s : State) (a : Word) (n : Width) (v : Word), Memory.wf s.ram = true → inRamWindow s.cfg a →
    fitsRam s.cfg a n →
    ∃ t, memWrite s a n v = .ok t ∧ t = { s with ram := t.ram } ∧
      ∀ b, Memory.read t.ram b =
        if a.toNat ≤ b ∧ b < a.toNat + n.bytes then v.extractLsb' (8 * (b - a.toNat)) 8 else Memory.read s.ram b

/-- What a RAM write of n bytes leaves, a read of n bytes at the same address returns: the low n bytes of the value, zero
above them. -/
def Obligations.WrittenValueReadsBack : Prop :=
  ∀ (s : State) (a : Word) (n : Width) (v : Word), Memory.wf s.ram = true → inRamWindow s.cfg a →
    fitsRam s.cfg a n →
    ∃ t u, memWrite s a n v = .ok t ∧ memRead t a n = .ok (u, t) ∧ ∀ k, k < 4 →
      u.extractLsb' (8 * k) 8 = if k < n.bytes then v.extractLsb' (8 * k) 8 else 0#8

/-- An access that starts in RAM and runs past its end is refused, read or write (the treatment R41 gives U1); an access
of one byte never does. -/
def Obligations.RamOverrunRefused : Prop :=
  (∀ (s : State) (a : Word) (n : Width) (v : Word), inRamWindow s.cfg a →
    s.cfg.ramBase.toNat + s.cfg.ramSize.toNat < a.toNat + n.bytes →
    memRead s a n = .error (.ramWindowOverrun a n) ∧ memWrite s a n v = .error (.ramWindowOverrun a n)) ∧
  ∀ (s : State) (a : Word) (v : Word), inRamWindow s.cfg a →
    (∃ b, memRead s a .byte = .ok (b, s)) ∧ ∃ t, memWrite s a .byte v = .ok t

/-- R48: a read at an unmapped address reports the address and returns 0; no other state changes. -/
def Obligations.UnmappedReadFaults : Prop :=
  ∀ (s : State) (a : Word) (n : Width), ¬inRamWindow s.cfg a → ¬inOutWindow s.cfg a →
    memRead s a n = .ok (0#32, { s with trace := s.trace ++ [.diagBusReadFault a] })

/-- A read in the output window, of any width at any offset, is a read fault that returns 0 and goes on: the spec's
decision D7 (log entry 14). -/
def Obligations.WindowReadFaults : Prop :=
  ∀ (s : State) (a : Word) (n : Width), ¬inRamWindow s.cfg a → inOutWindow s.cfg a →
    memRead s a n = .ok (0#32, { s with trace := s.trace ++ [.diagBusReadFault a] })

/-- R49: a write at an unmapped address reports the address and discards the value; no other state changes. -/
def Obligations.UnmappedWriteDiscarded : Prop :=
  ∀ (s : State) (a : Word) (n : Width) (v : Word), ¬inRamWindow s.cfg a → ¬inOutWindow s.cfg a →
    memWrite s a n v = .ok { s with trace := s.trace ++ [.diagBusWriteFault a] }

/-- The defined writes of the output window each append their one event and change nothing else: a character at offset 0
(widths 1 and 4), a decimal at 4 and a hexadecimal at 8 (width 4). -/
def Obligations.WindowWritesEmit : Prop :=
  ∀ (s : State) (a : Word) (v : Word), ¬inRamWindow s.cfg a →
    (a.toNat = s.cfg.outBase.toNat →
      memWrite s a .byte v = .ok { s with trace := s.trace ++ [.outChar (v.extractLsb' 0 8)] } ∧
      memWrite s a .word v = .ok { s with trace := s.trace ++ [.outChar (v.extractLsb' 0 8)] }) ∧
    (a.toNat = s.cfg.outBase.toNat + 4 → memWrite s a .word v = .ok { s with trace := s.trace ++ [.outDec v] }) ∧
    (a.toNat = s.cfg.outBase.toNat + 8 → memWrite s a .word v = .ok { s with trace := s.trace ++ [.outHex v] })

/-- Every other write into the output window is refused (the treatment R46 gives U2): one byte at offsets 1 to 11, two
bytes anywhere, four bytes at an offset other than 0, 4 and 8. -/
def Obligations.OtherWindowWritesRefused : Prop :=
  ∀ (s : State) (a : Word) (n : Width) (v : Word), ¬inRamWindow s.cfg a → inOutWindow s.cfg a →
    ((n = .byte ∧ a.toNat ≠ s.cfg.outBase.toNat) ∨ n = .half ∨
      (n = .word ∧ a.toNat ≠ s.cfg.outBase.toNat ∧ a.toNat ≠ s.cfg.outBase.toNat + 4 ∧
        a.toNat ≠ s.cfg.outBase.toNat + 8)) →
    memWrite s a n v = .error (.outWindowUnspecified a n)

/-- The register-file ports: the read ports show `x[ir[16:12]]` and `x[ir[11:7]]`; a write with `wa = 0` or `we = 0`
changes nothing, and any other sets that register alone. Interfaces are the spec's decision D12. -/
def Obligations.RegisterFilePorts : Prop :=
  ∀ (s : State) (wa : RegIdx) (wd : Word) (we : Bool),
    readPorts s = { qa := s.readReg (s.ir.extractLsb' 12 5), qb := s.readReg (s.ir.extractLsb' 7 5) } ∧
    ((wa = 0#5 ∨ we = false) → writePort s wa wd we = s) ∧
    (wa ≠ 0#5 → we = true → (writePort s wa wd we).readReg wa = wd ∧
      RegsUnchangedBut s (writePort s wa wd we) wa)

/-- A bus transaction is the primitive its request names; a read outside the RAM answers 0, and the events of a
transaction are recorded in the state it answers. Interfaces are the spec's decision D12 (log entry 19); the fault of a read
in the output window is its decision D7 (log entry 14). -/
def Obligations.BusTransactions : Prop :=
  ∀ (s : State) (a : Word) (n : Width) (v : Word),
    (¬inRamWindow s.cfg a → transact s { addr := a, size := n, write := false, wdata := v } =
      .ok (some 0#32, { s with trace := s.trace ++ [.diagBusReadFault a] })) ∧
    (inRamWindow s.cfg a → fitsRam s.cfg a n →
      transact s { addr := a, size := n, write := false, wdata := v } =
        .ok (some (Memory.load s.ram a.toNat n), s)) ∧
    (∀ t, transact s { addr := a, size := n, write := true, wdata := v } = .ok (none, t) ↔ memWrite s a n v = .ok t)

/-! ## The state, the cycle and the whole machine -/

/-- R20: a read of register 0 returns 0, a write to it is discarded, and after every step, from whatever state, its stored
slot is 0 too. -/
def Obligations.RegisterZeroIsHardwired : Prop :=
  ∀ s : State, s.readReg 0#5 = 0#32 ∧ (∀ v, s.writeReg 0#5 v = s) ∧
    ∀ t, step s = .next t → t.readReg 0#5 = 0#32 ∧ t.regs[0] = 0#32

/-- At the start of a run every register is 0, pc is RAM_BASE, the halt flag is clear, the phase is FETCH and the trace is
empty (R36, where the phase and the trace are the spec's own derivation). Nothing is said of npc and ir, which R36 leaves
unspecified. -/
def Obligations.RegistersAtStartOfRun : Prop :=
  ∀ (c : Config) (image : List Byte),
    (State.boot c image).cfg = c ∧ (∀ r, (State.boot c image).readReg r = 0#32) ∧
    (State.boot c image).pc = c.ramBase ∧ (State.boot c image).halted = false ∧
    (State.boot c image).phase = .fetch ∧ (State.boot c image).trace = []

/-- R39: at the start of a run the RAM holds the image at its start, cut at RAM_SIZE, and zero elsewhere. -/
def Obligations.MemoryAtStartOfRun : Prop :=
  ∀ (c : Config) (image : List Byte),
    (∀ k, k < min image.length c.ramSize.toNat →
      Memory.read (State.boot c image).ram (c.ramBase.toNat + k) = image.getD k 0#8) ∧
    (∀ a, (a < c.ramBase.toNat ∨ c.ramBase.toNat + min image.length c.ramSize.toNat ≤ a) →
      Memory.read (State.boot c image).ram a = 0#8)

/-- The invariant holds at the start of every run, for every valid configuration and image, and at `State.reset`. -/
def Obligations.InvariantAtStart : Prop :=
  (∀ (c : Config) (image : List Byte), c.valid → (State.boot c image).Inv) ∧ State.reset.Inv

/-- Every step keeps the invariant: valid parameters, RAM in canonical form inside its window, register 0's slot zero, and
phase HALTED exactly when the halt flag is set. -/
def Obligations.EveryStepKeepsInvariant : Prop :=
  ∀ s t : State, s.Inv → step s = .next t → t.Inv

/-- A step runs the decoded instruction: from phase FETCH with the word in RAM at pc, the step is the execution of the
instruction it decodes to, in the state with `ir` holding the word and the phase EXECUTE; from phase EXECUTE, that of the
word in `ir`. That FETCH is fused with the EXECUTE after it, and that a step from EXECUTE is the EXECUTE alone, is the
model's choice (log entry 5, which R31 allows by the spec's decision D13). -/
def Obligations.StepRunsDecodedInstruction : Prop :=
  (∀ (s : State) (i : Instr), s.phase = .fetch → inRamWindow s.cfg s.pc → fitsRam s.cfg s.pc .word →
    decode s.cfg.imms (Memory.load s.ram s.pc.toNat .word) = .known i →
    step s = exec i { s with ir := Memory.load s.ram s.pc.toNat .word, phase := .execute }) ∧
  ∀ (s : State) (i : Instr), s.phase = .execute → decode s.cfg.imms s.ir = .known i → step s = exec i s

/-- FETCH loads `ir` with the 32-bit bus read at pc and moves to EXECUTE (R28); a fetch that faults gives `ir = 0`, which
decodes as an unknown opcode. That a fetch from the output window is such a fault, with 0 as its result, is R47, the spec's
decision D7 (log entry 14). -/
def Obligations.FetchReadsWordAtPc : Prop :=
  (∀ (s s' : State) (w : Word), memRead s s.pc .word = .ok (w, s') →
    fetch s = .ok { s' with ir := w, phase := .execute }) ∧
  (∀ s : State, ¬inRamWindow s.cfg s.pc → ∃ u, fetch s = .ok u ∧ u.ir = 0#32 ∧ u.phase = .execute) ∧
  ∀ r : ImmReadings, decode r 0#32 = .unknown 0#7

/-- A fused step from FETCH is exactly the step from EXECUTE of the fetched state (R31, the spec's decision D13, log
entry 5). -/
def Obligations.StepFusesFetchAndExecute : Prop :=
  ∀ s u : State, s.phase = .fetch → fetch s = .ok u → u.phase = .execute ∧ step s = step u

/-- A fetch outside RAM records the read fault and then the decode fault of the word 0, and halts with pc + 4. The order is
the spec's inference R99; the fault in the output window is its decision D7 (log entry 14), the final pc is D21 (log entry
16), and that both phases are one step is the model's choice (log entry 5). -/
def Obligations.FaultingFetchHalts : Prop :=
  ∀ s : State, s.phase = .fetch → ¬inRamWindow s.cfg s.pc →
    ∃ t, step s = .next t ∧ t.trace = s.trace ++ [.diagBusReadFault s.pc, .diagDecodeFault 0#7 s.pc] ∧
      t.halted = true ∧ t.phase = .halted ∧ t.pc = s.pc + 4#32 ∧ t.ir = 0#32 ∧ RegsUnchanged s t ∧ RamUnchanged s t ∧
      t.cfg = s.cfg

/-- In phase HALTED there is no step; the model answers the fault `halted` (log entry 6). -/
def Obligations.HaltedHasNoStep : Prop :=
  ∀ s : State, (s.phase = .halted ↔ step s = .fault .halted) ∧
    (s.phase = .halted → ∀ k t, 0 < k → Host.Core.run Sys2Proof.core k s ≠ .next t)

/-- R26: a step sets the halt flag exactly when the word it executed is SYSTEM or an unknown opcode, and nothing clears
it. -/
def Obligations.OnlySystemAndUnknownHalt : Prop :=
  ∀ s t : State, step s = .next t →
    (t.halted = true ↔
      s.halted = true ∨ t.ir.extractLsb' 0 7 = 0x27#7 ∨ t.ir.extractLsb' 0 7 ∉ definedOpcodes)

/-- R81: the next-PC table, one row an alternative; JAL's offset is the configuration's JAL_IMM (U4). -/
def Obligations.NextPcTable : Prop :=
  ∀ s t : State, s.phase = .execute → step s = .next t → t.npc = t.pc ∧
    t.pc =
      if s.ir.extractLsb' 0 7 = 0x03#7 then s.pc + jalOffset s.cfg.imms.jalImm s.ir
      else if s.ir.extractLsb' 0 7 = 0x04#7 then
        (s.readReg (s.ir.extractLsb' 12 5) + (s.ir.extractLsb' 20 12).signExtend 32) &&& ~~~1#32
      else if s.ir.extractLsb' 0 7 = 0x05#7 then
        if s.readReg (s.ir.extractLsb' 12 5) = s.readReg (s.ir.extractLsb' 7 5) then
          s.pc + (s.ir.extractLsb' 20 12).signExtend 32 <<< 1
        else s.pc + 4#32
      else if s.ir.extractLsb' 0 7 = 0x27#7 then s.pc
      else s.pc + 4#32

/-- JAL and BRANCH targets keep bit 0 of pc, JALR clears bit 0 and leaves every other bit of its sum alone (R82, an
inference of the spec; JAL under the reference value of JAL_IMM, U4). -/
def Obligations.TargetsKeepOrClearBitZero : Prop :=
  ∀ s t : State, s.cfg.imms = .reference → s.phase = .execute → step s = .next t →
    (s.ir.extractLsb' 0 7 = 0x03#7 ∨ s.ir.extractLsb' 0 7 = 0x05#7 → t.pc.getLsbD 0 = s.pc.getLsbD 0) ∧
    (s.ir.extractLsb' 0 7 = 0x04#7 → t.pc.getLsbD 0 = false ∧ ∀ k, 1 ≤ k → t.pc.getLsbD k =
      (s.readReg (s.ir.extractLsb' 12 5) + (s.ir.extractLsb' 20 12).signExtend 32).getLsbD k)

/-- No step changes the parameters, and what the trace holds before a step it holds after it: a step only appends. -/
def Obligations.StepsKeepParametersAndPastEvents : Prop :=
  ∀ s t : State, step s = .next t → t.cfg = s.cfg ∧ ∃ es, t.trace = s.trace ++ es

/-- A byte of RAM changes in a step only if the step executed STORE and the byte is the one at its effective address. -/
def Obligations.OnlyStoreChangesRam : Prop :=
  ∀ (s t : State) (a : Nat), step s = .next t → Memory.read t.ram a ≠ Memory.read s.ram a →
    t.ir.extractLsb' 0 7 = 0x10#7 ∧
    a = (s.readReg (t.ir.extractLsb' 12 5) + storeOffset s.cfg.imms.storeImm t.ir).toNat ∧
    inRamWindow s.cfg (s.readReg (t.ir.extractLsb' 12 5) + storeOffset s.cfg.imms.storeImm t.ir)

/-- A register changes in a step only if it is the rd of the word executed, is not x0, and the word is LUI, AUIPC, JAL,
JALR, LOAD or OP_IMM: the "writes" column of R21. -/
def Obligations.OnlyDestinationRegisterChanges : Prop :=
  ∀ (s t : State) (r : RegIdx), step s = .next t → t.readReg r ≠ s.readReg r →
    r = t.ir.extractLsb' 7 5 ∧ r ≠ 0#5 ∧
    t.ir.extractLsb' 0 7 ∈ [0x01#7, 0x02#7, 0x03#7, 0x04#7, 0x0E#7, 0x13#7]

/-- A step appends at most one event, or exactly the fetch fault and then the decode fault of the word 0 (R99, an inference
of the spec; in the output window the fetch fault is its decision D7, log entry 14). -/
def Obligations.StepAppendsAtMostOneFaultPair : Prop :=
  ∀ s t : State, step s = .next t →
    t.trace = s.trace ∨ (∃ e, t.trace = s.trace ++ [e]) ∨
    (s.phase = .fetch ∧ ¬inRamWindow s.cfg s.pc ∧
      t.trace = s.trace ++ [.diagBusReadFault s.pc, .diagDecodeFault 0#7 s.pc])

/-- The only output event an instruction can produce is a character (R55, an inference of the spec), and only STORE to
OUT_BASE produces one. -/
def Obligations.OnlyCharactersAreOutput : Prop :=
  ∀ (s t : State) (es : List Event), step s = .next t → t.trace = s.trace ++ es →
    (∀ v, Event.outDec v ∉ es ∧ Event.outHex v ∉ es) ∧
    ∀ b, Event.outChar b ∈ es → t.ir.extractLsb' 0 7 = 0x10#7 ∧
      b = (s.readReg (t.ir.extractLsb' 7 5)).extractLsb' 0 8 ∧
      s.readReg (t.ir.extractLsb' 12 5) + storeOffset s.cfg.imms.storeImm t.ir = s.cfg.outBase

/-- The machine stops only where the spec stops it: a step is refused exactly for a fetch that overruns the RAM (U1) or a
STORE to offsets 1 to 11 of the output window (U2), and faults exactly in phase HALTED; every other step completes. Where R30
says that phase HALTED has no step, the fault `halted` is the model's choice (log entry 6); the two refusals are the
treatments R41 and R46 give (log entry 7). -/
def Obligations.StepStopsOnlyWhereSpecStops : Prop :=
  ∀ s : State,
    (∀ f, step s = .fault f ↔ s.phase = .halted ∧ f = .halted) ∧
    (∀ r, step s = .refused r ↔
      (s.phase = .fetch ∧ inRamWindow s.cfg s.pc ∧ ¬fitsRam s.cfg s.pc .word ∧ r = .ramWindowOverrun s.pc .word) ∨
      ∃ w ea, AboutToExecute s w ∧ w.extractLsb' 0 7 = 0x10#7 ∧
        ea = s.readReg (w.extractLsb' 12 5) + storeOffset s.cfg.imms.storeImm w ∧
        ¬inRamWindow s.cfg ea ∧ inOutWindow s.cfg ea ∧ ea ≠ s.cfg.outBase ∧ r = .outWindowUnspecified ea .byte)

/-- A store into the next instruction's word is seen by the next fetch, byte by byte, and does not change the word now
executing (R63, an inference of the spec). -/
def Obligations.StoreIsSeenByNextFetch : Prop :=
  ∀ (rs1 rs2 : RegIdx) (imm : Word) (s : State) (k : Nat), Memory.wf s.ram = true →
    inRamWindow s.cfg (s.pc + 4#32) → fitsRam s.cfg (s.pc + 4#32) .word → k < 4 →
    (s.readReg rs1 + imm).toNat = (s.pc + 4#32).toNat + k →
    ∃ t u, exec (.store rs1 rs2 imm) s = .next t ∧ t.ir = s.ir ∧ fetch t = .ok u ∧
      ∀ j, j < 4 → u.ir.extractLsb' (8 * j) 8 =
        if j = k then (s.readReg rs2).extractLsb' 0 8 else Memory.read s.ram ((s.pc + 4#32).toNat + j)

/-- Storing a byte at an address of RAM and then loading from it returns the same byte, zero-extended (E7). -/
def Obligations.StoreThenLoadRoundTrip : Prop :=
  ∀ (rs1 rs2 rd : RegIdx) (imm : Word) (s : State), Memory.wf s.ram = true →
    inRamWindow s.cfg (s.readReg rs1 + imm) →
    ∃ t u, exec (.store rs1 rs2 imm) s = .next t ∧ exec (.load rd rs1 imm) t = .next u ∧
      RegHolds u rd (((s.readReg rs2).extractLsb' 0 8).setWidth 32) ∧ u.trace = s.trace

/-- The free reset values do not matter: a step from FETCH is the same whatever npc and ir held (U9, log entry 3). -/
def Obligations.ResetNpcAndIrAreNotRead : Prop :=
  ∀ (s : State) (a b : Word), s.phase = .fetch → step { s with npc := a, ir := b } = step s

/-- No instruction can read the trace: with another trace the step gives the same state and appends the same events
(R34, R96). -/
def Obligations.TraceIsNotRead : Prop :=
  ∀ (s t : State) (tr : List Event), step s = .next t →
    ∃ es, t.trace = s.trace ++ es ∧ step { s with trace := tr } = .next { t with trace := tr ++ es }

/-- The model's loader: after a word is placed with `withFetchWord`, the next step is the execution of the instruction it
decodes to (log entry 9). -/
def Obligations.PlacedWordIsExecutedNext : Prop :=
  ∀ (s : State) (w : Word) (i : Instr), Memory.wf s.ram = true → inRamWindow s.cfg s.pc → fitsRam s.cfg s.pc .word →
    decode s.cfg.imms w = .known i →
    step (s.withFetchWord 32 w.toNat) = exec i { s.withFetchWord 32 w.toNat with ir := w, phase := .execute }

/-- `jal x0, 0` loops forever: a run of any length from it goes on, with the same pc and registers (R113 and R85 under the
reference value of JAL_IMM). -/
def Obligations.JumpToSelfNeverHalts : Prop :=
  ∀ s : State, s.cfg.imms.jalImm = .reference → s.phase = .fetch → s.halted = false → inRamWindow s.cfg s.pc →
    fitsRam s.cfg s.pc .word → Memory.load s.ram s.pc.toNat .word = 0x00000003#32 →
    ∀ k, ∃ t : State, Host.Core.run Sys2Proof.core k s = .next t ∧ t.pc = s.pc ∧ t.halted = false ∧ RegsUnchanged s t ∧
      t.ram = s.ram ∧ t.trace = s.trace

/-! ## The assembler and the text of the output -/

/-- `li rd, v` builds any constant: its expansion is well formed and executes to `x[rd] = v`, nothing else changed (R78,
the spec's decision D15). Whether a literal from `0xFFFFF800` on is one word or two is the model's choice (log entry 23); the
statement holds of either. -/
def Obligations.LiBuildsConstant : Prop :=
  ∀ (rd : RegIdx) (v : Word) (s : State),
    (∀ i ∈ (Pseudo.li rd v).expand, i.wellFormed = true) ∧
    ∃ t, execAll (Pseudo.li rd v).expand s = .next t ∧ RegHolds t rd v ∧ RegsUnchangedBut s t rd ∧
      RamUnchanged s t ∧ t.trace = s.trace ∧ t.halted = s.halted ∧
      t.pc = s.pc + BitVec.ofNat 32 (4 * (Pseudo.li rd v).expand.length)

/-- `nop`, `mv`, `j` and `ret` do what their names say (R78, the spec's decision D15). -/
def Obligations.OtherPseudoInstructions : Prop :=
  ∀ s : State,
    (∃ t, execAll Pseudo.nop.expand s = .next t ∧ RegsUnchanged s t ∧ EndsAt s t (s.pc + 4#32) ∧ RamUnchanged s t ∧
      t.trace = s.trace) ∧
    (∀ rd rs, ∃ t, execAll (Pseudo.mv rd rs).expand s = .next t ∧ RegHolds t rd (s.readReg rs) ∧
      RegsUnchangedBut s t rd ∧ EndsAt s t (s.pc + 4#32) ∧ RamUnchanged s t ∧ t.trace = s.trace) ∧
    (∀ off, ∃ t, execAll (Pseudo.j off).expand s = .next t ∧ RegsUnchanged s t ∧ EndsAt s t (s.pc + off) ∧
      RamUnchanged s t ∧ t.trace = s.trace) ∧
    (∃ t, execAll Pseudo.ret.expand s = .next t ∧ RegsUnchanged s t ∧
      EndsAt s t (s.readReg 1#5 &&& ~~~1#32) ∧ RamUnchanged s t ∧ t.trace = s.trace)

/-- The hexadecimal text of a value: base-16 digits that denote it, with no leading zeros (R44, decision D9). -/
def Obligations.HexTextDenotesValue : Prop :=
  ∀ v : Word, ∃ ds : List Nat, renderHex v = ds.map Nat.digitChar ∧ ds ≠ [] ∧ (∀ d ∈ ds, d < 16) ∧
    ds.foldl (fun n d => 16 * n + d) 0 = v.toNat ∧ (ds.head? = some 0 → ds = [0])

/-- The decimal text of a value: a minus sign exactly if it is negative as a signed integer, then base-10 digits that
denote its absolute value, with no leading zeros (R44, decision D9). -/
def Obligations.DecimalTextDenotesSignedValue : Prop :=
  ∀ v : Word, ∃ ds : List Nat,
    renderDec v = (if v.toInt < 0 then ['-'] else []) ++ ds.map Nat.digitChar ∧ ds ≠ [] ∧ (∀ d ∈ ds, d < 10) ∧
    ds.foldl (fun n d => 10 * n + d) 0 = v.toInt.natAbs ∧ (ds.head? = some 0 → ds = [0])
end

