-- ==== Sys2Proof/Laws/Encoding.lean ====
section
/-! SUPPORT. What decoding can answer, said once; the fields of a packed word; and reading a field of a field, so that no
later proof unfolds the opcode map or a packing. -/

namespace Sys2Proof

/-! ## Fields -/

/-- Two words that agree on a field agree on every field inside it. -/
theorem extractLsb'_congr {w w' : Word} {a n b m : Nat} (h : w.extractLsb' a n = w'.extractLsb' a n) (hb : a ≤ b)
    (hm : b + m ≤ a + n) : w.extractLsb' b m = w'.extractLsb' b m := by
  ext i hi
  have := congrArg (fun x : BitVec n => x.getLsbD (b - a + i)) h
  have hlt : b - a + i < n := by omega
  have hidx : a + (b - a + i) = b + i := by omega
  simpa [BitVec.getLsbD_extractLsb', hlt, hidx] using this

/-- Two words that agree below bit `k` and from bit `k` on are equal. -/
theorem word_ext {w w' : Word} (k : Nat) (hlo : w.extractLsb' 0 k = w'.extractLsb' 0 k)
    (hhi : w.extractLsb' k (32 - k) = w'.extractLsb' k (32 - k)) : w = w' := by
  apply BitVec.eq_of_getLsbD_eq
  intro i hi
  by_cases hk : i < k
  · have := congrArg (fun x : BitVec k => x.getLsbD i) hlo
    simpa [BitVec.getLsbD_extractLsb', hk] using this
  · have := congrArg (fun x : BitVec (32 - k) => x.getLsbD (i - k)) hhi
    have hlt : i - k < 32 - k := by omega
    have hidx : k + (i - k) = i := by omega
    simpa [BitVec.getLsbD_extractLsb', hlt, hidx] using this

/-! ## Bytes of a word (R53) -/

/-- `a :: b` as a number (R10). -/
theorem append_toNat {n m : Nat} (x : BitVec n) (y : BitVec m) : (x ++ y).toNat = x.toNat * 2 ^ m + y.toNat := by
  rw [BitVec.toNat_append, ← Nat.shiftLeft_add_eq_or_of_lt y.isLt, Nat.shiftLeft_eq]

/-- Little-endian: the first byte is the least significant. -/
theorem wordOfBytes_toNat (b0 b1 b2 b3 : Byte) : (wordOfBytes b0 b1 b2 b3).toNat =
    b0.toNat + b1.toNat * 256 + b2.toNat * 65536 + b3.toNat * 16777216 := by
  have h : (wordOfBytes b0 b1 b2 b3).toNat = (b3 ++ b2 ++ b1 ++ b0).toNat := rfl
  simp only [h, append_toNat]
  omega

theorem byteOf_toNat (v : Word) (k : Nat) : (byteOf v k).toNat = v.toNat / 256 ^ k % 256 := by
  have : 2 ^ (8 * k) = 256 ^ k := by rw [Nat.pow_mul]
  simp only [byteOf, BitVec.extractLsb'_toNat, Nat.shiftRight_eq_div_pow, this]

/-- A word is the word of its bytes. -/
theorem wordOfBytes_byteOf (v : Word) : wordOfBytes (byteOf v 0) (byteOf v 1) (byteOf v 2) (byteOf v 3) = v := by
  apply BitVec.eq_of_toNat_eq
  have := v.isLt
  rw [wordOfBytes_toNat]
  simp only [byteOf_toNat]
  omega

/-- The bytes of a word of bytes. -/
theorem byteOf_wordOfBytes (b0 b1 b2 b3 : Byte) :
    byteOf (wordOfBytes b0 b1 b2 b3) 0 = b0 ∧ byteOf (wordOfBytes b0 b1 b2 b3) 1 = b1 ∧
    byteOf (wordOfBytes b0 b1 b2 b3) 2 = b2 ∧ byteOf (wordOfBytes b0 b1 b2 b3) 3 = b3 := by
  have h0 := b0.isLt; have h1 := b1.isLt; have h2 := b2.isLt; have h3 := b3.isLt
  refine ⟨?_, ?_, ?_, ?_⟩ <;> apply BitVec.eq_of_toNat_eq <;> rw [byteOf_toNat, wordOfBytes_toNat] <;> omega

/-! ## The opcode map -/

theorem opcodeOf_toNat_eq {w : Word} {k : Nat} (hk : k < 128) :
    (opcodeOf w).toNat = k ↔ w.extractLsb' 0 7 = BitVec.ofNat 7 k := by
  have hmod : k % 2 ^ 7 = k := Nat.mod_eq_of_lt hk
  constructor
  · intro h
    apply BitVec.eq_of_toNat_eq
    rw [BitVec.toNat_ofNat, hmod]
    exact h
  · intro h
    rw [opcodeOf, h, BitVec.toNat_ofNat, hmod]

/-- What decoding can answer (R73): one of the nine instructions, each for its opcode alone, or the unknown opcode. -/
theorem decode_cases (r : ImmReadings) (w : Word) :
    (w.extractLsb' 0 7 = 0x01#7 ∧ decode r w = .known (.lui (rdOf w) (immU w))) ∨
    (w.extractLsb' 0 7 = 0x02#7 ∧ decode r w = .known (.auipc (rdOf w) (immU w))) ∨
    (w.extractLsb' 0 7 = 0x03#7 ∧ decode r w = .known (.jal (rdOf w) (jalOffset r.jalImm w))) ∨
    (w.extractLsb' 0 7 = 0x04#7 ∧ decode r w = .known (.jalr (rdOf w) (rs1Of w) (immI w))) ∨
    (w.extractLsb' 0 7 = 0x05#7 ∧ decode r w = .known (.branch (rs1Of w) (rdOf w) (immB w))) ∨
    (w.extractLsb' 0 7 = 0x0E#7 ∧ decode r w = .known (.load (rdOf w) (rs1Of w) (immI w))) ∨
    (w.extractLsb' 0 7 = 0x10#7 ∧
      decode r w = .known (.store (rs1Of w) (rdOf w) (storeOffset r.storeImm w))) ∨
    (w.extractLsb' 0 7 = 0x13#7 ∧ decode r w = .known (.opImm (rdOf w) (rs1Of w) (immI w))) ∨
    (w.extractLsb' 0 7 = 0x27#7 ∧ decode r w = .known .system) ∨
    (w.extractLsb' 0 7 ∉ definedOpcodes ∧ decode r w = .unknown (w.extractLsb' 0 7)) := by
  unfold decode
  split
  case h_10 h1 h2 h3 h4 h5 h6 h7 h8 h9 =>
    refine .inr (.inr (.inr (.inr (.inr (.inr (.inr (.inr (.inr ⟨fun hmem => ?_, rfl⟩))))))))
    simp only [definedOpcodes, List.mem_cons, List.not_mem_nil, or_false] at hmem
    rcases hmem with h | h | h | h | h | h | h | h | h
    · exact h1 ((opcodeOf_toNat_eq (by decide)).2 h)
    · exact h2 ((opcodeOf_toNat_eq (by decide)).2 h)
    · exact h3 ((opcodeOf_toNat_eq (by decide)).2 h)
    · exact h4 ((opcodeOf_toNat_eq (by decide)).2 h)
    · exact h5 ((opcodeOf_toNat_eq (by decide)).2 h)
    · exact h6 ((opcodeOf_toNat_eq (by decide)).2 h)
    · exact h7 ((opcodeOf_toNat_eq (by decide)).2 h)
    · exact h8 ((opcodeOf_toNat_eq (by decide)).2 h)
    · exact h9 ((opcodeOf_toNat_eq (by decide)).2 h)
  all_goals (rename_i h; rw [opcodeOf_toNat_eq (by decide)] at h; simp [h])

/-! ## The fields of a packed word -/

theorem packUJ_opcode (f : BitVec 20) (rd : RegIdx) (op : Opcode) : (packUJ f rd op).extractLsb' 0 7 = op := by
  ext i hi
  simp only [packUJ, BitVec.getElem_extractLsb', BitVec.getLsbD_append]
  simp [hi]

theorem packUJ_rd (f : BitVec 20) (rd : RegIdx) (op : Opcode) : rdOf (packUJ f rd op) = rd := by
  ext i hi
  simp only [rdOf, packUJ, BitVec.getElem_extractLsb', BitVec.getLsbD_append]
  simp [hi]

theorem packUJ_field (f : BitVec 20) (rd : RegIdx) (op : Opcode) : (packUJ f rd op).extractLsb' 12 20 = f := by
  ext i hi
  have h1 : ¬12 + i < 7 := by omega
  have h2 : ¬12 + i - 7 < 5 := by omega
  have h3 : 12 + i - 7 - 5 = i := by omega
  simp only [packUJ, BitVec.getElem_extractLsb', BitVec.getLsbD_append, h1, h2, h3, if_false]
  simp [hi]

theorem packIBS_opcode (f : BitVec 12) (rs1 rd : RegIdx) (op : Opcode) :
    (packIBS f rs1 rd op).extractLsb' 0 7 = op := by
  ext i hi
  simp only [packIBS, BitVec.getElem_extractLsb', BitVec.getLsbD_append]
  simp [hi]

theorem packIBS_rd (f : BitVec 12) (rs1 rd : RegIdx) (op : Opcode) : rdOf (packIBS f rs1 rd op) = rd := by
  ext i hi
  simp only [rdOf, packIBS, BitVec.getElem_extractLsb', BitVec.getLsbD_append]
  simp [hi]

theorem packIBS_rs1 (f : BitVec 12) (rs1 rd : RegIdx) (op : Opcode) : rs1Of (packIBS f rs1 rd op) = rs1 := by
  ext i hi
  have h1 : ¬12 + i < 7 := by omega
  have h2 : ¬12 + i - 7 < 5 := by omega
  have h3 : 12 + i - 7 - 5 = i := by omega
  simp only [rs1Of, packIBS, BitVec.getElem_extractLsb', BitVec.getLsbD_append, h1, h2, h3, if_false]
  simp [hi]

theorem packIBS_field (f : BitVec 12) (rs1 rd : RegIdx) (op : Opcode) :
    (packIBS f rs1 rd op).extractLsb' 20 12 = f := by
  ext i hi
  have h1 : ¬20 + i < 7 := by omega
  have h2 : ¬20 + i - 7 < 5 := by omega
  have h3 : ¬20 + i - 7 - 5 < 5 := by omega
  have h4 : ¬20 + i - 7 - 5 - 5 < 3 := by omega
  have h5 : 20 + i - 7 - 5 - 5 - 3 = i := by omega
  simp only [packIBS, BitVec.getElem_extractLsb', BitVec.getLsbD_append, h1, h2, h3, h4, h5, if_false]
  simp [hi]

end Sys2Proof
end

