-- ==== Sys2Proof/Laws/Memory.lean ====
section
/-! SUPPORT. The laws of the RAM: a byte written reads back and no other byte changes, on RAM in canonical form; every
operation keeps the canonical form and keeps the listed addresses among the old ones and the one written. -/

namespace Sys2Proof.Machine

/-- Every cell of `m` is listed at an address above `a`. -/
abbrev Memory.above (m : Memory) (a : Nat) : Prop := ∀ d ∈ m, a < d.1

theorem Memory.wf_cons (c : Host.Cell) (m : Memory) :
    Memory.wf (c :: m) = true ↔ c.2 ≠ unlistedByte ∧ Memory.above m c.1 ∧ Memory.wf m = true := by
  simp [Memory.wf, Memory.above, and_assoc]

@[simp] theorem Memory.wf_nil : Memory.wf [] = true := rfl

@[simp] theorem Memory.read_nil (a : Nat) : Memory.read [] a = unlistedByte := rfl

theorem Memory.read_above {m : Memory} {a b : Nat} (h : Memory.above m a) (hb : b ≤ a) :
    Memory.read m b = unlistedByte := by
  induction m with
  | nil => rfl
  | cons c m ih =>
    have hc := h c (by simp)
    have : c.1 ≠ b := by omega
    simp only [Memory.read, this, if_false]
    exact ih (fun d hd => h d (by simp [hd]))

/-- Writing one byte leaves every other byte's reading unchanged, whatever the form of the list. -/
theorem Memory.read_write_of_ne (m : Memory) {a b : Nat} (v : Byte) (h : b ≠ a) :
    Memory.read (Memory.write m a v) b = Memory.read m b := by
  have hab : a ≠ b := h.symm
  induction m with
  | nil => unfold Memory.write; split <;> simp [Memory.read, hab]
  | cons c m ih =>
    unfold Memory.write
    split
    · split <;> simp [Memory.read, hab]
    · split
      · next hac =>
        have hcb : c.1 ≠ b := by omega
        split <;> simp [Memory.read, hab, hcb]
      · simp [Memory.read, ih]

/-- A byte written to canonical RAM reads back. -/
theorem Memory.read_write_self {m : Memory} (hm : Memory.wf m = true) (a : Nat) (v : Byte) :
    Memory.read (Memory.write m a v) a = v := by
  induction m with
  | nil => unfold Memory.write; split <;> simp_all [Memory.read]
  | cons c m ih =>
    obtain ⟨-, hab, hm'⟩ := (Memory.wf_cons c m).1 hm
    unfold Memory.write
    split
    · next hlt =>
      split
      · next hv =>
        rw [hv]
        exact Memory.read_above (a := a) (fun d hd => by
          rcases List.mem_cons.1 hd with rfl | hd'
          · exact hlt
          · exact Nat.lt_trans hlt (hab d hd')) (Nat.le_refl a)
      · simp [Memory.read]
    · split
      · next heq =>
        split
        · next hv => rw [hv]; exact Memory.read_above hab (by omega)
        · simp [Memory.read]
      · next hlt heq =>
        have : c.1 ≠ a := by omega
        simp [Memory.read, this, ih hm']

/-- R42 and R43 for one byte, together. -/
theorem Memory.read_write {m : Memory} (hm : Memory.wf m = true) (a b : Nat) (v : Byte) :
    Memory.read (Memory.write m a v) b = if b = a then v else Memory.read m b := by
  split
  · next h => rw [h]; exact Memory.read_write_self hm a v
  · next h => exact Memory.read_write_of_ne m v h

/-- The cells after a write: old cells, or the byte written. -/
theorem Memory.mem_write {m : Memory} {a : Nat} {v : Byte} {d : Host.Cell} (h : d ∈ Memory.write m a v) :
    d ∈ m ∨ (d = (a, v) ∧ v ≠ unlistedByte) := by
  induction m with
  | nil =>
    unfold Memory.write at h
    split at h
    · simp at h
    · next hv => exact .inr ⟨by simpa using h, hv⟩
  | cons c m ih =>
    unfold Memory.write at h
    split at h
    · split at h
      · exact .inl h
      · next hv => exact (List.mem_cons.1 h).elim (fun e => .inr ⟨e, hv⟩) .inl
    · split at h
      · split at h
        · exact .inl (List.mem_cons_of_mem c h)
        · next hv => exact (List.mem_cons.1 h).elim (fun e => .inr ⟨e, hv⟩) (fun e => .inl (List.mem_cons_of_mem c e))
      · rcases List.mem_cons.1 h with rfl | h'
        · exact .inl (by simp)
        · exact (ih h').imp_left (List.mem_cons_of_mem c)

/-- A write keeps the canonical form. -/
theorem Memory.wf_write {m : Memory} (hm : Memory.wf m = true) (a : Nat) (v : Byte) :
    Memory.wf (Memory.write m a v) = true := by
  induction m with
  | nil =>
    unfold Memory.write
    split
    · rfl
    · next hv => exact (Memory.wf_cons _ _).2 ⟨hv, by simp, rfl⟩
  | cons c m ih =>
    obtain ⟨hc, hab, hm'⟩ := (Memory.wf_cons c m).1 hm
    unfold Memory.write
    split
    · next hlt =>
      split
      · exact hm
      · next hv =>
        refine (Memory.wf_cons _ _).2 ⟨hv, fun d hd => ?_, hm⟩
        rcases List.mem_cons.1 hd with rfl | hd'
        · exact hlt
        · exact Nat.lt_trans hlt (hab d hd')
    · split
      · next heq =>
        split
        · exact hm'
        · next hv => exact (Memory.wf_cons _ _).2 ⟨hv, fun d hd => heq ▸ hab d hd, hm'⟩
      · next hlt hne =>
        refine (Memory.wf_cons _ _).2 ⟨hc, fun d hd => ?_, ih hm'⟩
        rcases Memory.mem_write hd with h | ⟨rfl, -⟩
        · exact hab d h
        · show c.1 < a
          omega

/-- A store of several bytes keeps the canonical form. -/
theorem Memory.wf_storeBytes {m : Memory} (hm : Memory.wf m = true) (a : Nat) (v : Word) (n : Nat) :
    Memory.wf (Memory.storeBytes m a v n) = true := by
  induction n with
  | zero => exact hm
  | succ n ih => exact Memory.wf_write ih _ _

/-- A store of `n` bytes sets those bytes and no other (R43). -/
theorem Memory.read_storeBytes {m : Memory} (hm : Memory.wf m = true) (a : Nat) (v : Word) (n b : Nat) :
    Memory.read (Memory.storeBytes m a v n) b =
      if a ≤ b ∧ b < a + n then byteOf v (b - a) else Memory.read m b := by
  induction n with
  | zero => rw [if_neg (by omega)]; rfl
  | succ n ih =>
    rw [Memory.storeBytes, Memory.read_write (Memory.wf_storeBytes hm a v n), ih]
    by_cases h : b = a + n
    · rw [if_pos h, if_pos (by omega), h]
      congr 1
      omega
    · rw [if_neg h]
      by_cases h' : a ≤ b ∧ b < a + n
      · rw [if_pos h', if_pos (by omega)]
      · rw [if_neg h', if_neg (by omega)]

/-- The cells after a store of `n` bytes: old cells, or cells of the stored bytes. -/
theorem Memory.mem_storeBytes {m : Memory} {a : Nat} {v : Word} {n : Nat} {d : Host.Cell}
    (h : d ∈ Memory.storeBytes m a v n) : d ∈ m ∨ (a ≤ d.1 ∧ d.1 < a + n) := by
  induction n with
  | zero => exact .inl h
  | succ n ih =>
    rcases Memory.mem_write h with h' | ⟨rfl, -⟩
    · exact (ih h').imp_right (fun ⟨h1, h2⟩ => ⟨h1, by omega⟩)
    · exact .inr ⟨by simp, by simp⟩

/-- Byte `k` of a RAM read of n bytes: the byte at address `a + k`, and zero above the n bytes (R42). -/
theorem Memory.byteOf_load (m : Memory) (a : Nat) (n : Width) {k : Nat} (hk : k < 4) :
    byteOf (Memory.load m a n) k = if k < n.bytes then Memory.read m (a + k) else 0#8 := by
  have h0 := (Memory.read m a).isLt
  have h1 := (Memory.read m (a + 1)).isLt
  have hk' : k = 0 ∨ k = 1 ∨ k = 2 ∨ k = 3 := by omega
  cases n with
  | byte =>
    have e : (Memory.load m a .byte).toNat = (Memory.read m a).toNat := by
      rw [Memory.load, BitVec.toNat_setWidth]
      omega
    apply BitVec.eq_of_toNat_eq
    rw [byteOf_toNat, e]
    rcases hk' with rfl | rfl | rfl | rfl <;> simp [Width.bytes] <;> omega
  | half =>
    have e : (Memory.load m a .half).toNat = (Memory.read m (a + 1)).toNat * 256 + (Memory.read m a).toNat := by
      have := append_toNat (Memory.read m (a + 1)) (Memory.read m a)
      rw [Memory.load, BitVec.toNat_setWidth]
      omega
    apply BitVec.eq_of_toNat_eq
    rw [byteOf_toNat, e]
    rcases hk' with rfl | rfl | rfl | rfl <;> simp [Width.bytes] <;> omega
  | word =>
    obtain ⟨e0, e1, e2, e3⟩ := byteOf_wordOfBytes (Memory.read m a) (Memory.read m (a + 1)) (Memory.read m (a + 2))
      (Memory.read m (a + 3))
    rcases hk' with rfl | rfl | rfl | rfl <;> simp [Width.bytes, Memory.load, e0, e1, e2, e3]

/-- Loading an image keeps the canonical form. -/
theorem Memory.wf_loadImage {m : Memory} (hm : Memory.wf m = true) (a : Nat) (bs : List Byte) :
    Memory.wf (Memory.loadImage m a bs) = true := by
  induction bs generalizing m a with
  | nil => exact hm
  | cons b bs ih => exact ih (Memory.wf_write hm a b) (a + 1)

/-- Loading an image leaves every byte outside it unchanged. -/
theorem Memory.read_loadImage_outside (m : Memory) {a b : Nat} (bs : List Byte) (h : b < a ∨ a + bs.length ≤ b) :
    Memory.read (Memory.loadImage m a bs) b = Memory.read m b := by
  induction bs generalizing m a with
  | nil => rfl
  | cons c bs ih =>
    simp only [List.length_cons] at h
    rw [Memory.loadImage, ih _ (by omega)]
    exact Memory.read_write_of_ne m c (by omega)

/-- Byte `k` of a loaded image reads back (R39). -/
theorem Memory.read_loadImage {m : Memory} (hm : Memory.wf m = true) {a k : Nat} {bs : List Byte} (h : k < bs.length) :
    Memory.read (Memory.loadImage m a bs) (a + k) = bs[k] := by
  induction bs generalizing m a k with
  | nil => simp at h
  | cons c bs ih =>
    cases k with
    | zero =>
      rw [Memory.loadImage, Memory.read_loadImage_outside _ _ (by omega)]
      exact Memory.read_write_self hm a c
    | succ k =>
      have := ih (Memory.wf_write hm a c) (a := a + 1) (k := k) (by simpa using h)
      rw [Memory.loadImage, show a + (k + 1) = a + 1 + k by omega, this]
      rfl

/-- The cells after loading an image: old cells, or cells of its bytes. -/
theorem Memory.mem_loadImage {m : Memory} {a : Nat} {bs : List Byte} {d : Host.Cell}
    (h : d ∈ Memory.loadImage m a bs) : d ∈ m ∨ (a ≤ d.1 ∧ d.1 < a + bs.length) := by
  induction bs generalizing m a with
  | nil => exact .inl h
  | cons b bs ih =>
    rcases ih h with h' | ⟨h1, h2⟩
    · rcases Memory.mem_write h' with h'' | ⟨rfl, -⟩
      · exact .inl h''
      · exact .inr ⟨Nat.le_refl a, by simp⟩
    · exact .inr ⟨by omega, by simp only [List.length_cons]; omega⟩

/-- Placing a byte from outside keeps the canonical form. -/
theorem wf_pokeByte (c : Config) {m : Memory} (hm : Memory.wf m = true) (a : Nat) (b : Byte) :
    Memory.wf (pokeByte c m a b) = true := by
  unfold pokeByte
  split
  · exact Memory.wf_write hm a b
  · exact hm

/-- Placing a word at the pc keeps the canonical form. -/
theorem wf_placeAtPc {s : State} (h : Memory.wf s.ram = true) (w : Word) : Memory.wf (s.placeAtPc w).ram = true :=
  wf_pokeByte _ (wf_pokeByte _ (wf_pokeByte _ (wf_pokeByte _ h _ _) _ _) _ _) _ _

end Sys2Proof.Machine
end

