-- ==== Sys2Proof/Laws/State.lean ====
section
/-! SUPPORT. One lemma per field per update of State, and the register file's read-after-write laws, so that no later
proof unfolds a record update. -/

namespace Sys2Proof.Machine

/-! ## setHalted -/

@[simp] theorem State.setHalted_cfg (s : State) : (s.setHalted).cfg = s.cfg := rfl
@[simp] theorem State.setHalted_regs (s : State) : (s.setHalted).regs = s.regs := rfl
@[simp] theorem State.setHalted_pc (s : State) : (s.setHalted).pc = s.pc := rfl
@[simp] theorem State.setHalted_npc (s : State) : (s.setHalted).npc = s.npc := rfl
@[simp] theorem State.setHalted_ir (s : State) : (s.setHalted).ir = s.ir := rfl
@[simp] theorem State.setHalted_halted (s : State) : (s.setHalted).halted = true := rfl
@[simp] theorem State.setHalted_phase (s : State) : (s.setHalted).phase = s.phase := rfl
@[simp] theorem State.setHalted_ram (s : State) : (s.setHalted).ram = s.ram := rfl
@[simp] theorem State.setHalted_trace (s : State) : (s.setHalted).trace = s.trace := rfl

/-! ## setNpc -/

@[simp] theorem State.setNpc_cfg (s : State) (t : Word) : (s.setNpc t).cfg = s.cfg := rfl
@[simp] theorem State.setNpc_regs (s : State) (t : Word) : (s.setNpc t).regs = s.regs := rfl
@[simp] theorem State.setNpc_pc (s : State) (t : Word) : (s.setNpc t).pc = s.pc := rfl
@[simp] theorem State.setNpc_npc (s : State) (t : Word) : (s.setNpc t).npc = t := rfl
@[simp] theorem State.setNpc_ir (s : State) (t : Word) : (s.setNpc t).ir = s.ir := rfl
@[simp] theorem State.setNpc_halted (s : State) (t : Word) : (s.setNpc t).halted = s.halted := rfl
@[simp] theorem State.setNpc_phase (s : State) (t : Word) : (s.setNpc t).phase = s.phase := rfl
@[simp] theorem State.setNpc_ram (s : State) (t : Word) : (s.setNpc t).ram = s.ram := rfl
@[simp] theorem State.setNpc_trace (s : State) (t : Word) : (s.setNpc t).trace = s.trace := rfl

/-! ## beginExecute -/

@[simp] theorem State.beginExecute_cfg (s : State) : (s.beginExecute).cfg = s.cfg := rfl
@[simp] theorem State.beginExecute_regs (s : State) : (s.beginExecute).regs = s.regs := rfl
@[simp] theorem State.beginExecute_pc (s : State) : (s.beginExecute).pc = s.pc := rfl
@[simp] theorem State.beginExecute_npc (s : State) : (s.beginExecute).npc = s.pc + 4#32 := rfl
@[simp] theorem State.beginExecute_ir (s : State) : (s.beginExecute).ir = s.ir := rfl
@[simp] theorem State.beginExecute_halted (s : State) : (s.beginExecute).halted = s.halted := rfl
@[simp] theorem State.beginExecute_phase (s : State) : (s.beginExecute).phase = s.phase := rfl
@[simp] theorem State.beginExecute_ram (s : State) : (s.beginExecute).ram = s.ram := rfl
@[simp] theorem State.beginExecute_trace (s : State) : (s.beginExecute).trace = s.trace := rfl

/-! ## endExecute -/

@[simp] theorem State.endExecute_cfg (s : State) : (s.endExecute).cfg = s.cfg := rfl
@[simp] theorem State.endExecute_regs (s : State) : (s.endExecute).regs = s.regs.set 0 0#32 := rfl
@[simp] theorem State.endExecute_pc (s : State) : (s.endExecute).pc = s.npc := rfl
@[simp] theorem State.endExecute_npc (s : State) : (s.endExecute).npc = s.npc := rfl
@[simp] theorem State.endExecute_ir (s : State) : (s.endExecute).ir = s.ir := rfl
@[simp] theorem State.endExecute_halted (s : State) : (s.endExecute).halted = s.halted := rfl
@[simp] theorem State.endExecute_phase (s : State) : (s.endExecute).phase = phaseAfter s.halted := rfl
@[simp] theorem State.endExecute_ram (s : State) : (s.endExecute).ram = s.ram := rfl
@[simp] theorem State.endExecute_trace (s : State) : (s.endExecute).trace = s.trace := rfl

/-! ## latchIr -/

@[simp] theorem State.latchIr_cfg (s : State) (w : Word) : (s.latchIr w).cfg = s.cfg := rfl
@[simp] theorem State.latchIr_regs (s : State) (w : Word) : (s.latchIr w).regs = s.regs := rfl
@[simp] theorem State.latchIr_pc (s : State) (w : Word) : (s.latchIr w).pc = s.pc := rfl
@[simp] theorem State.latchIr_npc (s : State) (w : Word) : (s.latchIr w).npc = s.npc := rfl
@[simp] theorem State.latchIr_ir (s : State) (w : Word) : (s.latchIr w).ir = w := rfl
@[simp] theorem State.latchIr_halted (s : State) (w : Word) : (s.latchIr w).halted = s.halted := rfl
@[simp] theorem State.latchIr_phase (s : State) (w : Word) : (s.latchIr w).phase = .execute := rfl
@[simp] theorem State.latchIr_ram (s : State) (w : Word) : (s.latchIr w).ram = s.ram := rfl
@[simp] theorem State.latchIr_trace (s : State) (w : Word) : (s.latchIr w).trace = s.trace := rfl

/-! ## record and emit -/

@[simp] theorem State.record_cfg (s : State) (e : Event) : (s.record e).cfg = s.cfg := rfl
@[simp] theorem State.record_regs (s : State) (e : Event) : (s.record e).regs = s.regs := rfl
@[simp] theorem State.record_pc (s : State) (e : Event) : (s.record e).pc = s.pc := rfl
@[simp] theorem State.record_npc (s : State) (e : Event) : (s.record e).npc = s.npc := rfl
@[simp] theorem State.record_ir (s : State) (e : Event) : (s.record e).ir = s.ir := rfl
@[simp] theorem State.record_halted (s : State) (e : Event) : (s.record e).halted = s.halted := rfl
@[simp] theorem State.record_phase (s : State) (e : Event) : (s.record e).phase = s.phase := rfl
@[simp] theorem State.record_ram (s : State) (e : Event) : (s.record e).ram = s.ram := rfl
@[simp] theorem State.record_trace (s : State) (e : Event) : (s.record e).trace = s.trace ++ [e] := rfl

@[simp] theorem State.emit_cfg (s : State) (e : Event) : (s.emit e).cfg = s.cfg := rfl
@[simp] theorem State.emit_regs (s : State) (e : Event) : (s.emit e).regs = s.regs := rfl
@[simp] theorem State.emit_pc (s : State) (e : Event) : (s.emit e).pc = s.pc := rfl
@[simp] theorem State.emit_npc (s : State) (e : Event) : (s.emit e).npc = s.npc := rfl
@[simp] theorem State.emit_ir (s : State) (e : Event) : (s.emit e).ir = s.ir := rfl
@[simp] theorem State.emit_halted (s : State) (e : Event) : (s.emit e).halted = s.halted := rfl
@[simp] theorem State.emit_phase (s : State) (e : Event) : (s.emit e).phase = s.phase := rfl
@[simp] theorem State.emit_ram (s : State) (e : Event) : (s.emit e).ram = s.ram := rfl
@[simp] theorem State.emit_trace (s : State) (e : Event) : (s.emit e).trace = s.trace ++ [e] := rfl

/-! ## setRam -/

@[simp] theorem State.setRam_cfg (s : State) (m : Memory) : (s.setRam m).cfg = s.cfg := rfl
@[simp] theorem State.setRam_regs (s : State) (m : Memory) : (s.setRam m).regs = s.regs := rfl
@[simp] theorem State.setRam_pc (s : State) (m : Memory) : (s.setRam m).pc = s.pc := rfl
@[simp] theorem State.setRam_npc (s : State) (m : Memory) : (s.setRam m).npc = s.npc := rfl
@[simp] theorem State.setRam_ir (s : State) (m : Memory) : (s.setRam m).ir = s.ir := rfl
@[simp] theorem State.setRam_halted (s : State) (m : Memory) : (s.setRam m).halted = s.halted := rfl
@[simp] theorem State.setRam_phase (s : State) (m : Memory) : (s.setRam m).phase = s.phase := rfl
@[simp] theorem State.setRam_ram (s : State) (m : Memory) : (s.setRam m).ram = m := rfl
@[simp] theorem State.setRam_trace (s : State) (m : Memory) : (s.setRam m).trace = s.trace := rfl

/-! ## takeFault -/

@[simp] theorem State.takeFault_cfg (s : State) (f : BlockFault) : (s.takeFault f).cfg = s.cfg := by
  cases f <;> simp [State.takeFault, faultHalts]
@[simp] theorem State.takeFault_regs (s : State) (f : BlockFault) : (s.takeFault f).regs = s.regs := by
  cases f <;> simp [State.takeFault, faultHalts]
@[simp] theorem State.takeFault_pc (s : State) (f : BlockFault) : (s.takeFault f).pc = s.pc := by
  cases f <;> simp [State.takeFault, faultHalts]
@[simp] theorem State.takeFault_npc (s : State) (f : BlockFault) : (s.takeFault f).npc = s.npc := by
  cases f <;> simp [State.takeFault, faultHalts]
@[simp] theorem State.takeFault_ir (s : State) (f : BlockFault) : (s.takeFault f).ir = s.ir := by
  cases f <;> simp [State.takeFault, faultHalts]
@[simp] theorem State.takeFault_halted (s : State) (f : BlockFault) : (s.takeFault f).halted = (s.halted || faultHalts f) := by
  cases f <;> simp [State.takeFault, faultHalts]
@[simp] theorem State.takeFault_phase (s : State) (f : BlockFault) : (s.takeFault f).phase = s.phase := by
  cases f <;> simp [State.takeFault, faultHalts]
@[simp] theorem State.takeFault_ram (s : State) (f : BlockFault) : (s.takeFault f).ram = s.ram := by
  cases f <;> simp [State.takeFault, faultHalts]
@[simp] theorem State.takeFault_trace (s : State) (f : BlockFault) : (s.takeFault f).trace = s.trace ++ [faultEvent f] := by
  cases f <;> simp [State.takeFault, faultHalts]

/-! ## haltDiag -/

@[simp] theorem State.haltDiag_cfg (s : State) : (s.haltDiag).cfg = s.cfg := by
  unfold State.haltDiag; split <;> simp_all
@[simp] theorem State.haltDiag_regs (s : State) : (s.haltDiag).regs = s.regs := by
  unfold State.haltDiag; split <;> simp_all
@[simp] theorem State.haltDiag_pc (s : State) : (s.haltDiag).pc = s.pc := by
  unfold State.haltDiag; split <;> simp_all
@[simp] theorem State.haltDiag_npc (s : State) : (s.haltDiag).npc = s.npc := by
  unfold State.haltDiag; split <;> simp_all
@[simp] theorem State.haltDiag_ir (s : State) : (s.haltDiag).ir = s.ir := by
  unfold State.haltDiag; split <;> simp_all
@[simp] theorem State.haltDiag_halted (s : State) : (s.haltDiag).halted = s.halted := by
  unfold State.haltDiag; split <;> simp_all
@[simp] theorem State.haltDiag_phase (s : State) : (s.haltDiag).phase = s.phase := by
  unfold State.haltDiag; split <;> simp_all
@[simp] theorem State.haltDiag_ram (s : State) : (s.haltDiag).ram = s.ram := by
  unfold State.haltDiag; split <;> simp_all
@[simp] theorem State.haltDiag_trace (s : State) : (s.haltDiag).trace = s.trace ++ (if s.cfg.emitHaltDiag then [.diagHalt s.pc] else []) := by
  unfold State.haltDiag; split <;> simp_all

/-! ## writeReg -/

@[simp] theorem State.writeReg_cfg (s : State) (i : RegIdx) (v : Word) : (s.writeReg i v).cfg = s.cfg := by
  unfold State.writeReg; split <;> rfl
@[simp] theorem State.writeReg_pc (s : State) (i : RegIdx) (v : Word) : (s.writeReg i v).pc = s.pc := by
  unfold State.writeReg; split <;> rfl
@[simp] theorem State.writeReg_npc (s : State) (i : RegIdx) (v : Word) : (s.writeReg i v).npc = s.npc := by
  unfold State.writeReg; split <;> rfl
@[simp] theorem State.writeReg_ir (s : State) (i : RegIdx) (v : Word) : (s.writeReg i v).ir = s.ir := by
  unfold State.writeReg; split <;> rfl
@[simp] theorem State.writeReg_halted (s : State) (i : RegIdx) (v : Word) : (s.writeReg i v).halted = s.halted := by
  unfold State.writeReg; split <;> rfl
@[simp] theorem State.writeReg_phase (s : State) (i : RegIdx) (v : Word) : (s.writeReg i v).phase = s.phase := by
  unfold State.writeReg; split <;> rfl
@[simp] theorem State.writeReg_ram (s : State) (i : RegIdx) (v : Word) : (s.writeReg i v).ram = s.ram := by
  unfold State.writeReg; split <;> rfl
@[simp] theorem State.writeReg_trace (s : State) (i : RegIdx) (v : Word) : (s.writeReg i v).trace = s.trace := by
  unfold State.writeReg; split <;> rfl

/-! ## The register file (R14, R20) -/

@[simp] theorem State.readReg_zero (s : State) : s.readReg 0#5 = 0#32 := rfl

/-- Reading depends on the register array alone. -/
theorem State.readReg_congr {s t : State} (h : t.regs = s.regs) (i : RegIdx) : t.readReg i = s.readReg i := by
  simp [State.readReg, h]

/-- A register written reads as the value, any other as before; register 0 reads as zero. -/
theorem State.readReg_writeReg (s : State) (i j : RegIdx) (v : Word) :
    (s.writeReg i v).readReg j = if j = i ∧ i ≠ 0#5 then v else s.readReg j := by
  by_cases hi : i = 0#5
  · simp [State.writeReg, hi]
  · by_cases hji : j = i
    · subst hji; simp [State.readReg, State.writeReg, hi]
    · have ne : i.toNat ≠ j.toNat := fun e => hji (BitVec.eq_of_toNat_eq e.symm)
      by_cases hj : j = 0#5
      · subst hj; simp [hji]
      · simp [State.readReg, State.writeReg, hi, hj, hji, ne]

@[simp] theorem State.readReg_writeReg_self (s : State) (i : RegIdx) (v : Word) :
    (s.writeReg i v).readReg i = if i = 0#5 then 0#32 else v := by
  by_cases h : i = 0#5 <;> simp [State.readReg_writeReg, h]

theorem State.readReg_writeReg_of_ne (s : State) {i j : RegIdx} (v : Word) (h : j ≠ i) :
    (s.writeReg i v).readReg j = s.readReg j := by
  simp [State.readReg_writeReg, h]

/-- `x[0] <- 0` at the end of EXECUTE changes no register's reading (R20, R29). -/
@[simp] theorem State.readReg_endExecute (s : State) (i : RegIdx) : s.endExecute.readReg i = s.readReg i := by
  by_cases h : i = 0#5
  · simp [State.readReg, h]
  · have : (0 : Nat) ≠ i.toNat := fun e => h (BitVec.eq_of_toNat_eq e.symm)
    simp [State.readReg, h, this]

@[simp] theorem State.endExecute_slot0 (s : State) : s.endExecute.regs[0] = 0#32 := by simp

@[simp] theorem State.writeReg_slot0 (s : State) (i : RegIdx) (v : Word) :
    (s.writeReg i v).regs[0] = s.regs[0] := by
  unfold State.writeReg
  split
  · rfl
  · next h =>
    have : i.toNat ≠ 0 := fun e => h (BitVec.eq_of_toNat_eq e)
    simp [this]

@[simp] theorem State.readReg_setHalted (s : State) (i : RegIdx) : s.setHalted.readReg i = s.readReg i :=
  State.readReg_congr (by simp) i
@[simp] theorem State.readReg_setNpc (s : State) (t : Word) (i : RegIdx) : (s.setNpc t).readReg i = s.readReg i :=
  State.readReg_congr (by simp) i
@[simp] theorem State.readReg_beginExecute (s : State) (i : RegIdx) : s.beginExecute.readReg i = s.readReg i :=
  State.readReg_congr (by simp) i
@[simp] theorem State.readReg_latchIr (s : State) (w : Word) (i : RegIdx) : (s.latchIr w).readReg i = s.readReg i :=
  State.readReg_congr (by simp) i
@[simp] theorem State.readReg_record (s : State) (e : Event) (i : RegIdx) : (s.record e).readReg i = s.readReg i :=
  State.readReg_congr (by simp) i
@[simp] theorem State.readReg_emit (s : State) (e : Event) (i : RegIdx) : (s.emit e).readReg i = s.readReg i :=
  State.readReg_congr (by simp) i
@[simp] theorem State.readReg_setRam (s : State) (m : Memory) (i : RegIdx) : (s.setRam m).readReg i = s.readReg i :=
  State.readReg_congr (by simp) i
@[simp] theorem State.readReg_takeFault (s : State) (f : BlockFault) (i : RegIdx) : (s.takeFault f).readReg i = s.readReg i :=
  State.readReg_congr (by simp) i
@[simp] theorem State.readReg_haltDiag (s : State) (i : RegIdx) : s.haltDiag.readReg i = s.readReg i :=
  State.readReg_congr (by simp) i

end Sys2Proof.Machine
end

