-- ==== Sys2Proof/Laws/Ops.lean ====
section
/-! SUPPORT. One lemma per shared operation that says once what it can do: the bus decoder, the bus primitives, FETCH and
the step. -/

namespace Sys2Proof.Machine

/-- The three outcomes of the bus decoder, in the order of R40. -/
theorem route_cases (c : Config) (a : Word) :
    (inRamWindow c a ∧ route c a = .ram) ∨ (¬inRamWindow c a ∧ inOutWindow c a ∧ route c a = .out) ∨
    (¬inRamWindow c a ∧ ¬inOutWindow c a ∧ route c a = .unmapped) := by
  unfold route
  by_cases h : inRamWindow c a
  · exact .inl ⟨h, if_pos h⟩
  · rw [if_neg h]
    by_cases h' : inOutWindow c a
    · exact .inr (.inl ⟨h, h', if_pos h'⟩)
    · exact .inr (.inr ⟨h, h', if_neg h'⟩)

theorem route_eq_ram {c : Config} {a : Word} : route c a = .ram ↔ inRamWindow c a := by
  rcases route_cases c a with ⟨h, e⟩ | ⟨h, -, e⟩ | ⟨h, -, e⟩ <;> rw [e]
  · exact ⟨fun _ => h, fun _ => rfl⟩
  · exact ⟨nofun, fun h' => absurd h' h⟩
  · exact ⟨nofun, fun h' => absurd h' h⟩

theorem route_eq_out {c : Config} {a : Word} : route c a = .out ↔ ¬inRamWindow c a ∧ inOutWindow c a := by
  rcases route_cases c a with ⟨h, e⟩ | ⟨h, h', e⟩ | ⟨-, h, e⟩ <;> rw [e]
  · exact ⟨nofun, fun h' => absurd h h'.1⟩
  · exact ⟨fun _ => ⟨h, h'⟩, fun _ => rfl⟩
  · exact ⟨nofun, fun h' => absurd h'.2 h⟩

theorem route_eq_unmapped {c : Config} {a : Word} :
    route c a = .unmapped ↔ ¬inRamWindow c a ∧ ¬inOutWindow c a := by
  rcases route_cases c a with ⟨h, e⟩ | ⟨-, h, e⟩ | ⟨h, h', e⟩ <;> rw [e]
  · exact ⟨nofun, fun h' => absurd h h'.1⟩
  · exact ⟨nofun, fun h' => absurd h h'.2⟩
  · exact ⟨fun _ => ⟨h, h'⟩, fun _ => rfl⟩

/-- A byte widened to a word has that byte as its low byte. -/
theorem lowByte_setWidth (b : Byte) : (b.setWidth 32).extractLsb' 0 8 = b := by
  apply BitVec.eq_of_toNat_eq
  have := b.isLt
  simp only [BitVec.extractLsb'_toNat, BitVec.toNat_setWidth, Nat.shiftRight_zero]
  omega

/-- A one-byte access that starts in the RAM window stays in it (R41). -/
theorem fitsRam_byte {c : Config} {a : Word} (h : inRamWindow c a) : fitsRam c a .byte := by
  have := h.2
  simp only [fitsRam, Width.bytes]; omega

/-- What a bus read can do. -/
theorem memRead_cases (s : State) (a : Word) (n : Width) :
    (inRamWindow s.cfg a ∧ fitsRam s.cfg a n ∧ memRead s a n = .ok (Memory.load s.ram a.toNat n, s)) ∨
    (inRamWindow s.cfg a ∧ ¬fitsRam s.cfg a n ∧ memRead s a n = .error (.ramWindowOverrun a n)) ∨
    (¬inRamWindow s.cfg a ∧ memRead s a n = .ok (0#32, s.takeFault (.busReadFault a))) := by
  unfold memRead
  split
  · next h =>
    have hr := route_eq_ram.1 h
    by_cases hf : fitsRam s.cfg a n
    · exact .inl ⟨hr, hf, if_pos hf⟩
    · exact .inr (.inl ⟨hr, hf, if_neg hf⟩)
  · next h => exact .inr (.inr ⟨(route_eq_out.1 h).1, rfl⟩)
  · next h => exact .inr (.inr ⟨(route_eq_unmapped.1 h).1, rfl⟩)

/-- What a bus write can do. -/
theorem memWrite_cases (s : State) (a : Word) (n : Width) (v : Word) :
    (inRamWindow s.cfg a ∧ fitsRam s.cfg a n ∧
      memWrite s a n v = .ok (s.setRam (Memory.storeBytes s.ram a.toNat v n.bytes))) ∨
    (inRamWindow s.cfg a ∧ ¬fitsRam s.cfg a n ∧ memWrite s a n v = .error (.ramWindowOverrun a n)) ∨
    (route s.cfg a = .out ∧ ∃ e, outEvent (a.toNat - s.cfg.outBase.toNat) n v = some e ∧
      memWrite s a n v = .ok (s.emit e)) ∨
    (route s.cfg a = .out ∧ outEvent (a.toNat - s.cfg.outBase.toNat) n v = none ∧
      memWrite s a n v = .error (.outWindowUnspecified a n)) ∨
    (route s.cfg a = .unmapped ∧ memWrite s a n v = .ok (s.takeFault (.busWriteFault a))) := by
  unfold memWrite
  split
  · next h =>
    have hr := route_eq_ram.1 h
    by_cases hf : fitsRam s.cfg a n
    · exact .inl ⟨hr, hf, if_pos hf⟩
    · exact .inr (.inl ⟨hr, hf, if_neg hf⟩)
  · next h =>
    cases he : outEvent (a.toNat - s.cfg.outBase.toNat) n v with
    | some e => exact .inr (.inr (.inl ⟨h, e, rfl, rfl⟩))
    | none => exact .inr (.inr (.inr (.inl ⟨h, rfl, rfl⟩)))
  · next h => exact .inr (.inr (.inr (.inr ⟨h, rfl⟩)))

/-- The only defined byte write into the output window is at offset 0 (R44, R46). -/
theorem outEvent_byte (off : Nat) (v : Word) :
    outEvent off .byte v = if off = 0 then some (.outChar (v.extractLsb' 0 8)) else none := by
  unfold outEvent; split <;> simp_all

/-- A defined window write gives one of the three output events. -/
theorem outEvent_some {off : Nat} {n : Width} {v : Word} {e : Event} (h : outEvent off n v = some e) :
    (off = 0 ∧ n ≠ .half ∧ e = .outChar (v.extractLsb' 0 8)) ∨ (off = 4 ∧ n = .word ∧ e = .outDec v) ∨
    (off = 8 ∧ n = .word ∧ e = .outHex v) := by
  unfold outEvent at h; split at h <;> simp_all

/-- What FETCH can do (R28). -/
theorem fetch_cases (s : State) :
    (inRamWindow s.cfg s.pc ∧ fitsRam s.cfg s.pc .word ∧
      fetch s = .ok (s.latchIr (Memory.load s.ram s.pc.toNat .word))) ∨
    (inRamWindow s.cfg s.pc ∧ ¬fitsRam s.cfg s.pc .word ∧ fetch s = .error (.ramWindowOverrun s.pc .word)) ∨
    (¬inRamWindow s.cfg s.pc ∧ fetch s = .ok ((s.takeFault (.busReadFault s.pc)).latchIr 0#32)) := by
  unfold fetch
  rcases memRead_cases s s.pc .word with ⟨h, hf, e⟩ | ⟨h, hf, e⟩ | ⟨h, e⟩
  · exact .inl ⟨h, hf, by rw [e]⟩
  · exact .inr (.inl ⟨h, hf, by rw [e]⟩)
  · exact .inr (.inr ⟨h, by rw [e]⟩)

/-- LOAD always completes; it reads a RAM byte, or takes a read fault, or (rd = 0 only) makes no access (R89). -/
theorem execLoad_cases (rd rs1 : RegIdx) (imm : Word) (s : State) :
    (inRamWindow s.cfg (s.effAddr rs1 imm) ∧ (rd ≠ 0#5 ∨ s.cfg.loadX0Reads = true) ∧
      execLoad rd rs1 imm s = .next (s.beginExecute.writeReg rd
        ((Memory.read s.ram (s.effAddr rs1 imm).toNat).setWidth 32)).endExecute) ∨
    (¬inRamWindow s.cfg (s.effAddr rs1 imm) ∧ (rd ≠ 0#5 ∨ s.cfg.loadX0Reads = true) ∧
      execLoad rd rs1 imm s = .next ((s.beginExecute.takeFault (.busReadFault (s.effAddr rs1 imm))).writeReg rd
        0#32).endExecute) ∨
    (rd = 0#5 ∧ s.cfg.loadX0Reads = false ∧ execLoad rd rs1 imm s = .next s.beginExecute.endExecute) := by
  unfold execLoad
  by_cases hr : rd ≠ 0#5 ∨ s.cfg.loadX0Reads = true
  · rw [if_pos hr]
    rcases memRead_cases s.beginExecute (s.effAddr rs1 imm) .byte with ⟨h, -, e⟩ | ⟨h, hf, -⟩ | ⟨h, e⟩
    · refine .inl ⟨h, hr, ?_⟩
      rw [e]
      simp only [Memory.load, State.beginExecute_ram]
      rw [lowByte_setWidth]
    · exact absurd (fitsRam_byte h) hf
    · refine .inr (.inl ⟨h, hr, ?_⟩)
      rw [e]
      rfl
  · rw [if_neg hr]
    simp only [ne_eq, not_or, Decidable.not_not, Bool.not_eq_true] at hr
    exact .inr (.inr ⟨hr.1, hr.2, rfl⟩)

/-- What STORE can do (R90): a RAM byte, a character, a write fault, or the refusal of R46. -/
theorem execStore_cases (rs1 rs2 : RegIdx) (imm : Word) (s : State) :
    (inRamWindow s.cfg (s.effAddr rs1 imm) ∧ execStore rs1 rs2 imm s = .next (s.beginExecute.setRam
      (Memory.write s.ram (s.effAddr rs1 imm).toNat ((s.readReg rs2).extractLsb' 0 8))).endExecute) ∨
    (route s.cfg (s.effAddr rs1 imm) = .out ∧ s.effAddr rs1 imm = s.cfg.outBase ∧
      execStore rs1 rs2 imm s =
        .next (s.beginExecute.emit (.outChar ((s.readReg rs2).extractLsb' 0 8))).endExecute) ∨
    (route s.cfg (s.effAddr rs1 imm) = .out ∧ s.effAddr rs1 imm ≠ s.cfg.outBase ∧
      execStore rs1 rs2 imm s = .refused (.outWindowUnspecified (s.effAddr rs1 imm) .byte)) ∨
    (route s.cfg (s.effAddr rs1 imm) = .unmapped ∧ execStore rs1 rs2 imm s =
      .next (s.beginExecute.takeFault (.busWriteFault (s.effAddr rs1 imm))).endExecute) := by
  have hv : byteOf (((s.readReg rs2).extractLsb' 0 8).setWidth 32) 0 = (s.readReg rs2).extractLsb' 0 8 :=
    lowByte_setWidth _
  unfold execStore
  rcases memWrite_cases s.beginExecute (s.effAddr rs1 imm) .byte (((s.readReg rs2).extractLsb' 0 8).setWidth 32) with
    ⟨h, -, e⟩ | ⟨h, hf, -⟩ | ⟨h, ev, he, e⟩ | ⟨h, he, e⟩ | ⟨h, e⟩
  · refine .inl ⟨h, ?_⟩
    rw [e]
    simp [Width.bytes, Memory.storeBytes, hv]
  · exact absurd (fitsRam_byte h) hf
  · have hw : inOutWindow s.cfg (s.effAddr rs1 imm) := (route_eq_out.1 h).2
    rw [outEvent_byte, lowByte_setWidth] at he
    split at he
    · next h0 =>
      refine .inr (.inl ⟨h, BitVec.eq_of_toNat_eq ?_, ?_⟩)
      · have := hw.1
        simp only [State.beginExecute_cfg] at h0
        omega
      · rw [e, ← Option.some.inj he]
    · exact absurd he (by simp)
  · rw [outEvent_byte] at he
    split at he
    · exact absurd he (by simp)
    · next h0 =>
      refine .inr (.inr (.inl ⟨h, fun hab => h0 ?_, by rw [e]⟩))
      simp [hab]
  · exact .inr (.inr (.inr ⟨h, by rw [e]⟩))

/-- Every instruction that completes ends as EXECUTE ends (R29), in a state with the parameters and the word it began
with. -/
theorem exec_ends {i : Instr} {s t : State} (h : exec i s = .next t) :
    ∃ u : State, t = u.endExecute ∧ u.cfg = s.cfg ∧ u.ir = s.ir := by
  cases i with
  | lui rd imm => exact ⟨_, (Host.Outcome.next.inj h).symm, by simp, by simp⟩
  | auipc rd imm => exact ⟨_, (Host.Outcome.next.inj h).symm, by simp, by simp⟩
  | jal rd off => exact ⟨_, (Host.Outcome.next.inj h).symm, by simp, by simp⟩
  | jalr rd rs1 imm => exact ⟨_, (Host.Outcome.next.inj h).symm, by simp, by simp⟩
  | branch rs1 rs2 off =>
    have h' := (Host.Outcome.next.inj h).symm
    split at h' <;> exact ⟨_, h', by simp, by simp⟩
  | load rd rs1 imm =>
    rcases execLoad_cases rd rs1 imm s with ⟨-, -, e⟩ | ⟨-, -, e⟩ | ⟨-, -, e⟩ <;>
      exact ⟨_, (Host.Outcome.next.inj (e.symm.trans h)).symm, by simp, by simp⟩
  | store rs1 rs2 imm =>
    rcases execStore_cases rs1 rs2 imm s with ⟨-, e⟩ | ⟨-, -, e⟩ | ⟨-, -, e⟩ | ⟨-, e⟩
    · exact ⟨_, (Host.Outcome.next.inj (e.symm.trans h)).symm, by simp, by simp⟩
    · exact ⟨_, (Host.Outcome.next.inj (e.symm.trans h)).symm, by simp, by simp⟩
    · exact absurd (e.symm.trans h) nofun
    · exact ⟨_, (Host.Outcome.next.inj (e.symm.trans h)).symm, by simp, by simp⟩
  | opImm rd rs1 imm => exact ⟨_, (Host.Outcome.next.inj h).symm, by simp, by simp⟩
  | system => exact ⟨_, (Host.Outcome.next.inj h).symm, by simp, by simp⟩

/-- What a step that answers a next state is: the state `u` that EXECUTE begins in is `s` itself or `s` after FETCH, and
the next state is the effect of the word in `u.ir` (R28, R29, R31). -/
theorem step_cases {s t : State} (h : step s = .next t) :
    ∃ u, ((s.phase = .fetch ∧ fetch s = .ok u) ∨ (s.phase = .execute ∧ u = s)) ∧ u.phase = .execute ∧
      ((∃ i, decode u.cfg.imms u.ir = .known i ∧ exec i u = .next t) ∨
       (∃ op, decode u.cfg.imms u.ir = .unknown op ∧ execUnknown op u = .next t)) := by
  have hx : ∀ u, execute u = .next t → ((∃ i, decode u.cfg.imms u.ir = .known i ∧ exec i u = .next t) ∨
      (∃ op, decode u.cfg.imms u.ir = .unknown op ∧ execUnknown op u = .next t)) := fun u hu => by
    unfold execute at hu
    split at hu
    · next i hi => exact .inl ⟨i, hi, hu⟩
    · next op ho => exact .inr ⟨op, ho, hu⟩
  unfold step cycle at h
  split at h
  · next hp =>
    rcases fetch_cases s with ⟨-, -, e⟩ | ⟨-, -, e⟩ | ⟨-, e⟩ <;> rw [e] at h
    · exact ⟨_, .inl ⟨hp, e⟩, rfl, hx _ h⟩
    · exact absurd h (by simp)
    · exact ⟨_, .inl ⟨hp, e⟩, rfl, hx _ h⟩
  · next hp => exact ⟨s, .inr ⟨hp, rfl⟩, hp, hx s h⟩
  · exact absurd h (by simp)

end Sys2Proof.Machine
end

