-- ==== Sys2Proof/Laws/PerInstr.lean ====
section
/-! SUPPORT. The family `EncodedOpcode`: the encoder gives every instruction the opcode of its row (R73, R77). One lemma
per constructor of `Instr`. -/

namespace Sys2Proof.Laws.EncodedOpcode

/-- The opcode of an instruction's row (R73). -/
def rowOpcode : Instr → Opcode
  | .lui _ _ => 0x01#7
  | .auipc _ _ => 0x02#7
  | .jal _ _ => 0x03#7
  | .jalr _ _ _ => 0x04#7
  | .branch _ _ _ => 0x05#7
  | .load _ _ _ => 0x0E#7
  | .store _ _ _ => 0x10#7
  | .opImm _ _ _ => 0x13#7
  | .system => 0x27#7

/-- Bits 6:0 of the encoded word are the opcode of the instruction's row. -/
def Statement (i : Instr) : Prop := (encode i).extractLsb' 0 7 = rowOpcode i

theorem lui (rd : RegIdx) (imm : Word) : Statement (.lui rd imm) := packUJ_opcode _ _ _

theorem auipc (rd : RegIdx) (imm : Word) : Statement (.auipc rd imm) := packUJ_opcode _ _ _

theorem jal (rd : RegIdx) (off : Word) : Statement (.jal rd off) := packUJ_opcode _ _ _

theorem jalr (rd rs1 : RegIdx) (imm : Word) : Statement (.jalr rd rs1 imm) := packIBS_opcode _ _ _ _

theorem branch (rs1 rs2 : RegIdx) (off : Word) : Statement (.branch rs1 rs2 off) := packIBS_opcode _ _ _ _

theorem load (rd rs1 : RegIdx) (imm : Word) : Statement (.load rd rs1 imm) := packIBS_opcode _ _ _ _

theorem store (rs1 rs2 : RegIdx) (imm : Word) : Statement (.store rs1 rs2 imm) := packIBS_opcode _ _ _ _

theorem opImm (rd rs1 : RegIdx) (imm : Word) : Statement (.opImm rd rs1 imm) := packIBS_opcode _ _ _ _

theorem system : Statement .system := by unfold Statement encode rowOpcode; decide

end Sys2Proof.Laws.EncodedOpcode
end

