-- ==== Sys2Proof/Tests/Slice0.lean ====
section
/-! SUPPORT. The model's own tests. Expected values are those of spec/95_test_vectors.md (named by table and row) or are
worked out by hand from the rule cited; a `witness_` theorem shows states and operands that meet a statement's hypotheses. -/

namespace Sys2Proof.Tests

open Sys2Proof.Machine

/-! ## Small states -/

/-- `State.reset` with the listed registers, this pc and these bytes of RAM. -/
def base (regs : List (RegIdx × Word)) (pc : Word) (ram : Memory) : State :=
  { regs.foldl (fun s r => s.writeReg r.1 r.2) State.reset with pc := pc, ram := ram }

/-- The same, with the word `w` placed at pc: how every row of the tables starts. -/
def start (regs : List (RegIdx × Word)) (pc : Word) (ram : Memory) (w : Nat) : State :=
  (base regs pc ram).withFetchWord 32 w

/-- The same, in phase EXECUTE with `w` in ir. -/
def fetched (regs : List (RegIdx × Word)) (pc : Word) (ram : Memory) (w : Word) : State :=
  { base regs pc ram with ir := w, phase := .execute }

/-- `s` with other parameters. -/
def withCfg (s : State) (c : Config) : State := { s with cfg := c }

/-- What `f` sees in a next state. -/
def seen {α : Type} (f : State → α) : Host.Outcome State Fault Refusal → Option α
  | .next t => some (f t)
  | .fault _ => none
  | .refused _ => none

/-- One step, and what `f` sees after it. -/
def after {α : Type} (s : State) (f : State → α) : Option α := seen f (step s)

/-- The reason an outcome is refused for. -/
def why : Host.Outcome State Fault Refusal → Option Refusal
  | .next _ => none
  | .fault _ => none
  | .refused r => some r

/-- A register, pc, the trace and the halt flag. -/
def view (r : RegIdx) (s : State) : Word × Word × List Event × Bool := (s.readReg r, s.pc, s.trace, s.halted)

/-- What a bus read gives: the value and the trace. -/
def readGives (s : State) (a : Word) (n : Width) : Option (Word × List Event) :=
  match memRead s a n with
  | .ok (v, t) => some (v, t.trace)
  | .error _ => none

/-- What a bus write gives: the RAM and the trace. -/
def writeGives (s : State) (a : Word) (n : Width) (v : Word) : Option (Memory × List Event) :=
  match memWrite s a n v with
  | .ok t => some (t.ram, t.trace)
  | .error _ => none

/-! ## WellFormed: each check refuses an ill-formed term -/

theorem test_wf_lui : (Instr.lui 1 0x1001).wellFormed = false ∧ (Instr.lui 1 0xFFFFF000).wellFormed = true := by decide
theorem test_wf_auipc : (Instr.auipc 1 0x800).wellFormed = false ∧ (Instr.auipc 1 0x1000).wellFormed = true := by decide
theorem test_wf_jal_odd : (Instr.jal 1 21).wellFormed = false ∧ (Instr.jal 1 20).wellFormed = true := by decide
theorem test_wf_jal_range : (Instr.jal 1 0x100000).wellFormed = false ∧ (Instr.jal 1 0xFFFFE).wellFormed = true ∧
    (Instr.jal 1 0xFFEFFFFE).wellFormed = false ∧ (Instr.jal 1 0xFFF00000).wellFormed = true := by decide
theorem test_wf_jalr : (Instr.jalr 1 1 2048).wellFormed = false ∧ (Instr.jalr 1 1 2047).wellFormed = true := by decide
theorem test_wf_branch_odd : (Instr.branch 1 2 7).wellFormed = false ∧ (Instr.branch 1 2 8).wellFormed = true := by
  decide
theorem test_wf_branch_range : (Instr.branch 1 2 4096).wellFormed = false ∧ (Instr.branch 1 2 4094).wellFormed = true ∧
    (Instr.branch 1 2 (-4098)).wellFormed = false ∧ (Instr.branch 1 2 (-4096)).wellFormed = true := by decide
theorem test_wf_load : (Instr.load 1 1 (-2049)).wellFormed = false ∧ (Instr.load 1 1 (-2048)).wellFormed = true := by
  decide
theorem test_wf_store : (Instr.store 1 1 2048).wellFormed = false ∧ (Instr.store 1 1 2047).wellFormed = true := by decide
theorem test_wf_opImm : (Instr.opImm 1 1 (-2049)).wellFormed = false ∧ (Instr.opImm 1 1 (-1)).wellFormed = true := by
  decide

/-! ## Decoding: words written out bit by bit from R66 to R72, fields separated by underscores -/

/-- imm 31:12, rd, opcode. -/
theorem test_decode_lui : decode .reference 0b00010000000000000001_11111_0000001 =
    .known (.lui 31 0x10001000) := by decide
theorem test_decode_auipc : decode .reference 0b11111111111111111111_00011_0000010 =
    .known (.auipc 3 0xFFFFF000) := by decide
theorem test_decode_jal : decode .reference 0b00000000000000001010_00001_0000011 = .known (.jal 1 20) := by decide
theorem test_decode_jal_min : decode .reference 0b10000000000000000000_00001_0000011 =
    .known (.jal 1 (-1048576)) := by decide
/-- imm 31:20, ignored 19:17, rs1, rd, opcode. -/
theorem test_decode_jalr : decode .reference 0b111111111111_000_00110_00101_0000100 = .known (.jalr 5 6 (-1)) := by decide
theorem test_decode_branch : decode .reference 0b000000001000_000_00001_00010_0000101 =
    .known (.branch 1 2 16) := by decide
theorem test_decode_load : decode .reference 0b000000000001_000_00010_00011_0001110 = .known (.load 3 2 1) := by decide
theorem test_decode_store : decode .reference 0b100000000000_000_00010_00001_0010000 =
    .known (.store 2 1 (-2048)) := by decide
/-- Bits 19:17 set (OP_IMM table, row 9). -/
theorem test_decode_opImm : decode .reference 0b000000000000_111_00010_00001_0010011 = .known (.opImm 1 2 0) := by decide
theorem test_decode_system : decode .reference 0b1111111111111111111111111_0100111 = .known .system := by decide
theorem test_decode_unknown : decode .reference 0b0000000000000000000000000_1111111 = .unknown 0x7F := by decide
theorem test_decode_unknown_neighbour : decode .reference 0xFFFFFF86 = .unknown 0x06 := by decide

/-- A reading other than the reference gives JAL another offset, of which nothing is known (U4). -/
theorem test_decode_other_jal : decode { storeImm := .reference, jalImm := .other 0 } 0x0000A083 =
    .known (.jal 1 (Config.otherJalImm 0 0x0000A083)) := rfl

theorem test_table_word : decodeTableWord 32 0x00105013 = some (.opImm 0 5 1) ∧ decodeTableWord 32 0x7F = none := by
  decide

/-- The words of the tables of 95_test_vectors.md, from their assembly (R77). -/
theorem test_encode_words :
    encode (.lui 1 0xFFFFF000) = 0xFFFFF081 ∧ encode (.auipc 5 0x80000000) = 0x80000282 ∧
    encode (.jal 0 (-8)) = 0xFFFFC003 ∧ encode (.jalr 7 0 2047) = 0x7FF00384 ∧
    encode (.branch 3 3 4094) = 0x7FF03185 ∧ encode (.load 3 2 (-1)) = 0xFFF0218E ∧
    encode (.store 2 2 (-2048)) = 0x80002110 ∧ encode (.opImm 1 2 (-2048)) = 0x80002093 ∧
    encode .system = 0x00000027 := by decide

theorem test_clear_ignored : clearIgnored 0x000E2093 = 0x00002093 ∧ clearIgnored 0xFFFFFFA7 = 0x27 ∧
    clearIgnored 0x12345001 = 0x12345001 := by decide

/-! ## One step of each instruction -/

/-- LUI and AUIPC, row 4. -/
theorem test_lui_overwrites : after (start [(31, 0xDEADBEEF)] 0x80000000 [] 0x00000F81) (view 31) =
    some (0, 0x80000004, [], false) := by decide
/-- Row 3. -/
theorem test_lui_x0 : after (start [] 0x80000000 [] 0x12345001) (view 0) = some (0, 0x80000004, [], false) := by decide
/-- Row 6. -/
theorem test_auipc_negative : after (start [] 0x80000000 [] 0xFFFFF182) (view 3) =
    some (0x7FFFF000, 0x80000004, [], false) := by decide
/-- Row 7. -/
theorem test_auipc_own_pc : after (start [] 0x80000024 [] 0x00000202) (view 4) =
    some (0x80000024, 0x80000028, [], false) := by decide
/-- JAL, JALR, BRANCH, row 4. -/
theorem test_jal_back : after (start [] 0x80100000 [] 0x80000083) (view 1) =
    some (0x80100004, 0x80000000, [], false) := by decide
/-- Row 5. -/
theorem test_jal_forward : after (start [] 0x80000000 [] 0x7FFFF083) (view 1) =
    some (0x80000004, 0x800FFFFE, [], false) := by decide
/-- Row 7: rd = rs1. -/
theorem test_jalr_same_register : after (start [(1, 0x80000200)] 0x80000000 [] 0x00401084) (view 1) =
    some (0x80000004, 0x80000204, [], false) := by decide
/-- Row 8: bit 0 cleared. -/
theorem test_jalr_clears_bit0 : after (start [(6, 0x80000080)] 0x80000000 [] 0xFFF06284) (view 5) =
    some (0x80000004, 0x8000007E, [], false) := by decide
/-- Row 15. -/
theorem test_branch_taken : after (start [(1, 0xFFFFFFFF), (2, 0xFFFFFFFF)] 0x80002000 [] 0x80001105) (view 1) =
    some (0xFFFFFFFF, 0x80001000, [], false) := by decide
/-- Row 16. -/
theorem test_branch_not_taken : after (start [(1, 0x80000000)] 0x80000000 [] 0x00401105) (view 2) =
    some (0, 0x80000004, [], false) := by decide
/-- LOAD and STORE, row 3. -/
theorem test_load_zero_extends : after (start [(2, 0x80000100)] 0x80000000 [(0x800000FF, 0x80)] 0xFFF0218E) (view 3) =
    some (0x80, 0x80000004, [], false) := by decide
/-- Row 6. -/
theorem test_load_window : after (start [(2, 0x10000000), (3, 0x55)] 0x80000000 [] 0x0000218E) (view 3) =
    some (0, 0x80000004, [.diagBusReadFault 0x10000000], false) := by decide
/-- Row 9. -/
theorem test_store_byte : after (start [(1, 0x12345678), (2, 0x80000100)] 0x80000000 [] 0x00002090)
    (fun t => (Memory.read t.ram 0x80000100, Memory.read t.ram 0x80000101, t.pc, t.trace)) =
    some (0x78, 0, 0x80000004, []) := by decide
/-- Row 11. -/
theorem test_store_char : after (start [(1, 0x141), (2, 0x10000000)] 0x80000000 [] 0x00002090) (view 1) =
    some (0x141, 0x80000004, [.outChar 0x41], false) := by decide
/-- OP_IMM, row 3. -/
theorem test_opImm_wraps : after (start [(1, 0xFFFFFFFF)] 0x80000000 [] 0x00101093) (view 1) =
    some (0, 0x80000004, [], false) := by decide
/-- Row 5. -/
theorem test_opImm_min : after (start [] 0x80000000 [] 0x80002093) (view 1) =
    some (0xFFFFF800, 0x80000004, [], false) := by decide
/-- SYSTEM, row 1 (E11). -/
theorem test_system : after (start [] 0x80000010 [] 0x00000027) (fun t => (view 0 t, t.phase)) =
    some ((0, 0x80000010, [], true), .halted) := by decide
/-- SYSTEM, row 3: `EMIT_HALT_DIAG = true`. -/
theorem test_system_diag :
    after (withCfg (start [] 0x80000000 [] 0x00000027) { resetConfig with emitHaltDiag := true }) (view 0) =
    some (0, 0x80000000, [.diagHalt 0x80000000], true) := by decide
/-- Unknown opcodes, row 5. -/
theorem test_unknown_zero : after (start [] 0x80000008 [] 0) (view 0) =
    some (0, 0x8000000C, [.diagDecodeFault 0 0x80000008], true) := by decide
/-- Unknown opcodes, row 8. -/
theorem test_unknown_neighbour : after (start [] 0x80000000 [] 0xFFFFFF86) (view 31) =
    some (0, 0x80000004, [.diagDecodeFault 0x06 0x80000000], true) := by decide

/-! ## Fetch, refusals and the halted block -/

/-- Fetch, row 4: both faults in order, and pc + 4 wraps. -/
theorem test_fetch_fault : after (base [] 0xFFFFFFFC []) (view 0) =
    some (0, 0, [.diagBusReadFault 0xFFFFFFFC, .diagDecodeFault 0 0xFFFFFFFC], true) := by decide
/-- Fetch, row 6. -/
theorem test_fetch_overrun : why (step (base [] 0x81FFFFFE [])) = some (.ramWindowOverrun 0x81FFFFFE .word) := by decide
/-- LOAD and STORE, row 12. -/
theorem test_store_refused : why (step (start [(1, 7), (2, 0x10000000)] 0x80000000 [] 0x00402090)) =
    some (.outWindowUnspecified 0x10000004 .byte) := by decide
/-- Row 17. -/
theorem test_store_past_window : after (start [(1, 0x41), (2, 0x10000000)] 0x80000000 [] 0x00C02090) (view 1) =
    some (0x41, 0x80000004, [.diagBusWriteFault 0x1000000C], false) := by decide
/-- Row 7, and the same row with `LOAD_X0_READS = false`. -/
theorem test_load_x0 :
    after (start [(2, 4)] 0x80000000 [] 0x0000200E) (view 0) =
      some (0, 0x80000004, [.diagBusReadFault 4], false) ∧
    after (withCfg (start [(2, 4)] 0x80000000 [] 0x0000200E) { resetConfig with loadX0Reads := false }) (view 0) =
      some (0, 0x80000004, [], false) := by decide
/-- In phase HALTED there is no step (R30). -/
theorem test_halted : step { State.reset with halted := true, phase := .halted } = .fault .halted := rfl

/-! ## The bus -/

/-- Bus-level rows 2 and 3: unaligned reads. -/
theorem test_bus_read :
    readGives (base [] 0 [(0x80000000, 0x11), (0x80000001, 0x22), (0x80000002, 0x33), (0x80000003, 0x44),
      (0x80000004, 0x55)]) 0x80000001 .word = some (0x55443322, []) ∧
    readGives (base [] 0 [(0x80000000, 0x11), (0x80000001, 0x22), (0x80000002, 0x33), (0x80000003, 0x44)])
      0x80000001 .half = some (0x3322, []) := by decide
/-- Row 10. -/
theorem test_bus_read_window : readGives (base [] 0 []) 0x1000000B .byte =
    some (0, [.diagBusReadFault 0x1000000B]) := by decide
/-- Row 12. -/
theorem test_bus_write : writeGives (base [] 0 []) 0x80000008 .word 0xA1B2C3D4 =
    some ([(0x80000008, 0xD4), (0x80000009, 0xC3), (0x8000000A, 0xB2), (0x8000000B, 0xA1)], []) := by decide
/-- Rows 15, 16 and 20. -/
theorem test_bus_events :
    writeGives (base [] 0 []) 0x10000000 .word 0x12345641 = some ([], [.outChar 0x41]) ∧
    writeGives (base [] 0 []) 0x10000004 .word 0xFFFFFFFF = some ([], [.outDec 0xFFFFFFFF]) ∧
    writeGives (base [] 0 []) 0x10000008 .word 0xABCD = some ([], [.outHex 0xABCD]) := by decide
/-- Rows 6, 22, 23 and 24. -/
theorem test_bus_refused :
    readGives (base [] 0 []) 0x81FFFFFD .word = none ∧ writeGives (base [] 0 []) 0x10000000 .half 0x41 = none ∧
    writeGives (base [] 0 []) 0x10000004 .byte 0x41 = none ∧ writeGives (base [] 0 []) 0x10000002 .word 0x41 = none := by
  decide
/-- A zero written over a byte leaves the canonical form: no cell (log entry 8). -/
theorem test_bus_write_zero : writeGives (base [] 0 [(0x80000100, 0xFF)]) 0x80000100 .byte 0 = some ([], []) := by decide

/-! ## Start, end and text -/

theorem test_boot_empty : State.boot resetConfig [] = State.reset := by decide
/-- R39: image bytes beyond `RAM_SIZE` are not loaded. -/
theorem test_boot_truncates :
    (State.boot { resetConfig with ramSize := 2 } [1, 2, 3]).ram = [(0x80000000, 1), (0x80000001, 2)] := by decide
/-- E12: the run with an empty image. -/
theorem test_empty_run : after State.reset (fun t => (decide t.ended, t.observe.pc, t.observe.trace)) =
    some (true, 0x80000004, [.diagDecodeFault 0 0x80000000]) := by decide
/-- Bus-level rows 16, 17, 20 and E8, as D9 renders them. -/
theorem test_text : String.ofList (renderDec 0xFFFFFFFF) = "-1" ∧ String.ofList (renderDec 0x80000000) = "-2147483648" ∧
    String.ofList (renderHex 0xABCD) = "abcd" ∧ String.ofList (renderHex 0) = "0" ∧
    String.ofList (outputStream [.outChar 0x41, .diagHalt 0, .outDec 42]) = "A42" := by decide
/-- R78: `li` with a low half whose bit 11 is set. -/
theorem test_li : (Pseudo.li 5 0x12345FFF).expand = [.lui 5 0x12346000, .opImm 5 5 0xFFFFFFFF] ∧
    (Pseudo.li 5 0x12345000).expand = [.lui 5 0x12345000] ∧ (Pseudo.li 5 (-1)).expand = [.opImm 5 0 (-1)] := by decide

/-! ## Witnesses: states and operands that meet the hypotheses of the statements, at the ends of their ranges

In `base` the RAM is `[0x80000000, 0x82000000)` and the output window `[0x10000000, 0x1000000C)`. -/

theorem witness_LuiLoadsUpperImmediate : (0x10000F81#32).extractLsb' 0 7 = 0x01#7 := by decide
theorem witness_AuipcAddsToCurrentPc : (0xFFFFF182#32).extractLsb' 0 7 = 0x02#7 := by decide
theorem witness_JalJumpsAndLinks : (0x80000083#32).extractLsb' 0 7 = 0x03#7 := by decide
theorem witness_JalrJumpsToRegisterAndLinks : (0x00401084#32).extractLsb' 0 7 = 0x04#7 := by decide
theorem witness_BranchTakenOnEquality : (0x80001105#32).extractLsb' 0 7 = 0x05#7 := by decide

/-- The last byte of RAM; the last byte of the window and the first past it; rd = 0 with and without the read. -/
theorem witness_LoadReadsByteOrFaults :
    (0xFFF0218E#32).extractLsb' 0 7 = 0x0E#7 ∧
    inRamWindow State.reset.cfg ((base [(2, 0x82000000)] 0 []).readReg 2 + 0xFFFFFFFF) ∧
    ¬inRamWindow State.reset.cfg ((base [(2, 0x82000000)] 0 []).readReg 2 + 0) ∧
    ¬inRamWindow State.reset.cfg ((base [(2, 0x10000000)] 0 []).readReg 2 + 11) ∧
    ¬inRamWindow State.reset.cfg ((base [(2, 0x10000000)] 0 []).readReg 2 + 12) ∧
    (3#5 ≠ 0#5 ∨ State.reset.cfg.loadX0Reads = true) ∧ (0#5 ≠ 0#5 ∨ State.reset.cfg.loadX0Reads = true) ∧
    (withCfg State.reset { resetConfig with loadX0Reads := false }).cfg.loadX0Reads = false := by decide

/-- The two ends of RAM, the window's offset 0, the first address past the window, and the address below RAM. -/
theorem witness_StoreWritesByteOrEmitsOrFaults :
    (0x80002110#32).extractLsb' 0 7 = 0x10#7 ∧
    (inRamWindow resetConfig 0x80000000 ∧ ¬inOutWindow resetConfig 0x80000000) ∧
    (inRamWindow resetConfig 0x81FFFFFF ∧ ¬inOutWindow resetConfig 0x81FFFFFF) ∧
    (¬inRamWindow resetConfig 0x10000000 ∧ inOutWindow resetConfig 0x10000000 ∧
      (0x10000000 : Word) = resetConfig.outBase) ∧
    (¬inRamWindow resetConfig 0x1000000C ∧ ¬inOutWindow resetConfig 0x1000000C) ∧
    (¬inRamWindow resetConfig 0x7FFFFFFF ∧ ¬inOutWindow resetConfig 0x7FFFFFFF) ∧ Memory.wf State.reset.ram = true := by
  decide

/-- With the windows overlapping, an address of both is RAM, so a store to it completes. -/
theorem witness_overlap :
    inRamWindow { resetConfig with outBase := 0x80000000 } 0x80000004 ∧
    inOutWindow { resetConfig with outBase := 0x80000000 } 0x80000004 ∧
    { resetConfig with outBase := 0x80000000 }.valid := by decide

/-- Offsets 1 and 11. -/
theorem witness_StoreToUndefinedWindowOffsetRefused :
    ¬inRamWindow resetConfig 0x10000001 ∧ resetConfig.outBase.toNat + 1 ≤ (0x10000001 : Word).toNat ∧
    ¬inRamWindow resetConfig 0x1000000B ∧ (0x1000000B : Word).toNat ≤ resetConfig.outBase.toNat + 11 ∧
    (base [(2, 0x10000000)] 0 []).readReg 2 + 11#32 = 0x1000000B := by decide

theorem witness_OpImmAddsImmediate : (0x7FF02093#32).extractLsb' 0 7 = 0x13#7 := by decide
theorem witness_SystemHaltsAtItsOwnAddress : (0xFFFFFFA7#32).extractLsb' 0 7 = 0x27#7 := by decide
theorem witness_UnknownOpcodeReportsAndHalts :
    (fetched [] 0x80000000 [] 0x7F).phase = .execute ∧
    (fetched [] 0x80000000 [] 0x7F).ir.extractLsb' 0 7 ∉ definedOpcodes := by decide

/-- Bits 19:17 of an OP_IMM word and bits 31:7 of a SYSTEM word. -/
theorem witness_IgnoredBitsDoNotMatter :
    ((0x000E2093#32).extractLsb' 0 7 ∈ [0x04#7, 0x05#7, 0x0E#7, 0x10#7, 0x13#7] ∧
      (0x000E2093#32).extractLsb' 0 17 = (0x00002093#32).extractLsb' 0 17 ∧
      (0x000E2093#32).extractLsb' 20 12 = (0x00002093#32).extractLsb' 20 12) ∧
    ((0xFFFFFFA7#32).extractLsb' 0 7 = 0x27#7 ∧ (0x00000027#32).extractLsb' 0 7 = 0x27#7) ∧
    ((0x0000A083#32).extractLsb' 0 7 ∈ [0x01#7, 0x02#7, 0x03#7] ∧
      decode .reference 0x0000A083 = decode .reference 0x0000A083) := by decide

theorem witness_ImmediateValuesAndRanges : (0xFFFFF000 : Word).toNat % 4096 = 0 := by decide
theorem witness_DecodeOfEncodeIsIdentity :
    (Instr.jal 31 0xFFF00000).wellFormed = true ∧ (Instr.branch 31 31 4094).wellFormed = true ∧
    (Instr.lui 0 0xFFFFF000).wellFormed = true ∧ (Instr.store 31 0 (-2048)).wellFormed = true := by decide
theorem witness_EncodeOfDecodeIsCanonicalWord : decode .reference 0x000E2093 = .known (.opImm 1 2 0) := by decide

/-- The last word, half and byte of RAM. -/
theorem witness_RamReadIsLittleEndian :
    (inRamWindow resetConfig 0x81FFFFFC ∧ fitsRam resetConfig 0x81FFFFFC .word) ∧
    (inRamWindow resetConfig 0x81FFFFFE ∧ fitsRam resetConfig 0x81FFFFFE .half) ∧
    (inRamWindow resetConfig 0x81FFFFFF ∧ fitsRam resetConfig 0x81FFFFFF .byte) := by decide
theorem witness_RamWriteSetsItsBytesOnly :
    Memory.wf (base [] 0 [(0x81FFFFFC, 1)]).ram = true ∧ inRamWindow resetConfig 0x81FFFFFC ∧
    fitsRam resetConfig 0x81FFFFFC .word := by decide
theorem witness_WrittenValueReadsBack :
    Memory.wf (base [] 0 []).ram = true ∧ inRamWindow resetConfig 0x80000001 ∧ fitsRam resetConfig 0x80000001 .half := by
  decide
theorem witness_RamOverrunRefused :
    (inRamWindow resetConfig 0x81FFFFFD ∧
      resetConfig.ramBase.toNat + resetConfig.ramSize.toNat < (0x81FFFFFD : Word).toNat + Width.word.bytes) ∧
    (inRamWindow resetConfig 0x81FFFFFF ∧
      resetConfig.ramBase.toNat + resetConfig.ramSize.toNat < (0x81FFFFFF : Word).toNat + Width.half.bytes) := by decide
/-- Also the hypotheses of UnmappedWriteDiscarded: the first addresses past each window and the last below RAM. -/
theorem witness_UnmappedReadFaults :
    (¬inRamWindow resetConfig 0x82000000 ∧ ¬inOutWindow resetConfig 0x82000000) ∧
    (¬inRamWindow resetConfig 0x7FFFFFFF ∧ ¬inOutWindow resetConfig 0x7FFFFFFF) ∧
    (¬inRamWindow resetConfig 0x1000000C ∧ ¬inOutWindow resetConfig 0x1000000C) := by decide
theorem witness_UnmappedWriteDiscarded :
    ¬inRamWindow resetConfig 0xFFFFFFFF ∧ ¬inOutWindow resetConfig 0xFFFFFFFF := by decide
theorem witness_WindowReadFaults :
    (¬inRamWindow resetConfig 0x10000000 ∧ inOutWindow resetConfig 0x10000000) ∧
    (¬inRamWindow resetConfig 0x1000000B ∧ inOutWindow resetConfig 0x1000000B) := by decide
theorem witness_WindowWritesEmit :
    (¬inRamWindow resetConfig 0x10000000 ∧ (0x10000000 : Word).toNat = resetConfig.outBase.toNat) ∧
    (¬inRamWindow resetConfig 0x10000004 ∧ (0x10000004 : Word).toNat = resetConfig.outBase.toNat + 4) ∧
    (¬inRamWindow resetConfig 0x10000008 ∧ (0x10000008 : Word).toNat = resetConfig.outBase.toNat + 8) := by decide
/-- A byte at offsets 1 and 11, a half at offset 0, a word at offset 11. -/
theorem witness_OtherWindowWritesRefused :
    (¬inRamWindow resetConfig 0x10000001 ∧ inOutWindow resetConfig 0x10000001 ∧
      (0x10000001 : Word).toNat ≠ resetConfig.outBase.toNat) ∧
    (¬inRamWindow resetConfig 0x10000000 ∧ inOutWindow resetConfig 0x10000000) ∧
    (¬inRamWindow resetConfig 0x1000000B ∧ inOutWindow resetConfig 0x1000000B ∧
      (0x1000000B : Word).toNat ≠ resetConfig.outBase.toNat ∧
      (0x1000000B : Word).toNat ≠ resetConfig.outBase.toNat + 4 ∧
      (0x1000000B : Word).toNat ≠ resetConfig.outBase.toNat + 8) := by decide
theorem witness_RegisterFilePorts :
    (0#5 = 0#5 ∨ true = false) ∧ (31#5 = 0#5 ∨ false = false) ∧ (31#5 ≠ 0#5 ∧ true = true) := by decide
theorem witness_BusTransactions :
    ¬inRamWindow resetConfig 0x10000000 ∧ (inRamWindow resetConfig 0x80000000 ∧ fitsRam resetConfig 0x80000000 .word) ∧
    (writeGives State.reset 0x80000000 .byte 1).isSome = true := by decide

/-- A step that writes x1, then one from a state whose slot 0 is not zero. -/
theorem witness_RegisterZeroIsHardwired :
    after (start [] 0x80000000 [] 0x00105013) (fun t => t.regs[0]) = some 0 ∧
    after { start [] 0x80000000 [] 0x00105093 with regs := Vector.replicate 32 7#32 } (fun t => (t.regs[0], t.readReg 1)) =
      some (0, 8) := by decide
theorem witness_MemoryAtStartOfRun : (0 : Nat) < min [1#8].length resetConfig.ramSize.toNat ∧
    resetConfig.ramBase.toNat + min [1#8].length resetConfig.ramSize.toNat ≤ 0x80000001 := by decide
theorem witness_InvariantAtStart : resetConfig.valid := by decide
/-- A configuration whose RAM ends at the top of the address space is valid too. -/
theorem witness_EveryStepKeepsInvariant :
    (start [(1, 0x141), (2, 0x80000100)] 0x80000000 [] 0x00002090).Inv ∧
    (after (start [(1, 0x141), (2, 0x80000100)] 0x80000000 [] 0x00002090) id).isSome = true ∧
    { resetConfig with ramBase := 0xFE000000 }.valid := by decide
/-- The last word of RAM that a fetch can read, and a state in phase EXECUTE. -/
theorem witness_StepRunsDecodedInstruction :
    ((start [] 0x81FFFFFC [] 0x00105093).phase = .fetch ∧ inRamWindow resetConfig 0x81FFFFFC ∧
      fitsRam resetConfig 0x81FFFFFC .word ∧
      decode .reference (Memory.load (start [] 0x81FFFFFC [] 0x00105093).ram 0x81FFFFFC .word) =
        .known (.opImm 1 5 1)) ∧
    ((fetched [] 0x80000000 [] 0x00105093).phase = .execute ∧
      decode .reference (fetched [] 0x80000000 [] 0x00105093).ir = .known (.opImm 1 5 1)) := by decide
theorem witness_FetchReadsWordAtPc :
    readGives (start [] 0x80000001 [] 0x00105093) 0x80000001 .word = some (0x00105093, []) ∧
    ¬inRamWindow resetConfig (base [] 0x10000000 []).pc := by decide
theorem witness_StepFusesFetchAndExecute :
    State.reset.phase = .fetch ∧ (match fetch State.reset with | .ok _ => true | .error _ => false) = true := by decide
theorem witness_FaultingFetchHalts :
    (base [] 0x82000000 []).phase = .fetch ∧ ¬inRamWindow resetConfig (base [] 0x82000000 []).pc ∧
    ¬inRamWindow resetConfig (base [] 0x10000004 []).pc := by decide
theorem witness_HaltedHasNoStep : ({ State.reset with halted := true, phase := .halted } : State).phase = .halted ∧
    0 < 3 := by decide
theorem witness_OnlySystemAndUnknownHalt :
    after (start [] 0x80000000 [] 0x00105093) (fun t => (t.halted, t.ir)) = some (false, 0x00105093) := by decide
theorem witness_NextPcTable :
    (fetched [(6, 0x80000080)] 0x80000000 [] 0xFFF06284).phase = .execute ∧
    after (fetched [(6, 0x80000080)] 0x80000000 [] 0xFFF06284) (view 5) =
      some (0x80000004, 0x8000007E, [], false) := by decide
/-- An odd pc, and JALR to an odd sum. -/
theorem witness_TargetsKeepOrClearBitZero :
    (fetched [] 0x80000001 [] 0x0000A083).cfg.imms = .reference ∧
    after (fetched [] 0x80000001 [] 0x0000A083) (fun t => t.pc) = some 0x80000015 ∧
    after (fetched [(1, 0x80000011)] 0x80000000 [] 0x00001004) (fun t => t.pc) = some 0x80000010 := by decide
theorem witness_StepsKeepParametersAndPastEvents :
    after { start [(2, 4)] 0x80000000 [] 0x0000200E with trace := [.outChar 1] } (fun t => t.trace) =
      some [.outChar 1, .diagBusReadFault 4] := by decide
theorem witness_OnlyStoreChangesRam :
    after (start [(1, 1), (2, 0x81FFFFFF)] 0x80000000 [] 0x00002090) (fun t => Memory.read t.ram 0x81FFFFFF) = some 1 ∧
    Memory.read (start [(1, 1), (2, 0x81FFFFFF)] 0x80000000 [] 0x00002090).ram 0x81FFFFFF = 0 := by decide
theorem witness_OnlyDestinationRegisterChanges :
    after (start [] 0x80000000 [] 0xFFFFF081) (fun t => t.readReg 1) = some 0xFFFFF000 ∧
    (start [] 0x80000000 [] 0xFFFFF081).readReg 1 = 0 := by decide
theorem witness_StepAppendsAtMostOneFaultPair : (after State.reset id).isSome = true := by decide
theorem witness_OnlyCharactersAreOutput :
    after (start [(1, 0x41), (2, 0x10000000)] 0x80000000 [] 0x00002090) (fun t => t.trace) = some [.outChar 0x41] := by
  decide

/-- The store goes to the first and to the last byte of the next word. -/
theorem witness_StoreIsSeenByNextFetch :
    Memory.wf (base [(2, 0x80000004)] 0x80000000 []).ram = true ∧
    inRamWindow resetConfig ((base [(2, 0x80000004)] 0x80000000 []).pc + 4#32) ∧
    fitsRam resetConfig ((base [(2, 0x80000004)] 0x80000000 []).pc + 4#32) .word ∧
    ((base [(2, 0x80000004)] 0x80000000 []).readReg 2 + 0#32).toNat =
      ((base [(2, 0x80000004)] 0x80000000 []).pc + 4#32).toNat + 0 ∧
    ((base [(2, 0x80000004)] 0x80000000 []).readReg 2 + 3#32).toNat =
      ((base [(2, 0x80000004)] 0x80000000 []).pc + 4#32).toNat + 3 := by decide
theorem witness_StoreThenLoadRoundTrip :
    Memory.wf (base [(2, 0x81FFFFFF)] 0 []).ram = true ∧
    inRamWindow resetConfig ((base [(2, 0x81FFFFFF)] 0 []).readReg 2 + 0#32) := by decide
theorem witness_ResetNpcAndIrAreNotRead : State.reset.phase = .fetch := by decide
theorem witness_TraceIsNotRead : (after (start [] 0x80000000 [] 0x00000027) id).isSome = true := by decide
theorem witness_PlacedWordIsExecutedNext :
    Memory.wf (base [] 0x81FFFFFC [(0x81FFFFFD, 9)]).ram = true ∧
    inRamWindow resetConfig (base [] 0x81FFFFFC []).pc ∧ fitsRam resetConfig (base [] 0x81FFFFFC []).pc .word ∧
    decode resetConfig.imms 0x00105093#32 = .known (.opImm 1 5 1) := by decide
theorem witness_JumpToSelfNeverHalts :
    (start [] 0x80000000 [] 3).cfg.imms.jalImm = .reference ∧ (start [] 0x80000000 [] 3).phase = .fetch ∧
    (start [] 0x80000000 [] 3).halted = false ∧ inRamWindow resetConfig (start [] 0x80000000 [] 3).pc ∧
    fitsRam resetConfig (start [] 0x80000000 [] 3).pc .word ∧
    Memory.load (start [] 0x80000000 [] 3).ram 0x80000000 .word = 0x00000003#32 := by decide

end Sys2Proof.Tests
end

section
/-! SUPPORT. What one step can do to the registers, the RAM, the halt flag, the phase and the parameters, said once
(R20, R21, R26, R29, R90); what a step does not read (U9, R34); and the statements about the state that follow. -/

namespace Sys2Proof.Machine

/-! ## The phases of a step (R27 to R31) -/

theorem step_of_fetch {s u : State} (hp : s.phase = .fetch) (hf : fetch s = .ok u) : step s = execute u := by
  simp only [step, cycle, hp, hf]

theorem step_of_fetch_error {s : State} {r : Refusal} (hp : s.phase = .fetch) (hf : fetch s = .error r) :
    step s = .refused r := by
  simp only [step, cycle, hp, hf]

theorem step_of_execute {s : State} (hp : s.phase = .execute) : step s = execute s := by
  simp only [step, cycle, hp]

theorem step_of_halted {s : State} (hp : s.phase = .halted) : step s = .fault .halted := by
  simp only [step, cycle, hp]

theorem execute_of_known {s : State} {i : Instr} (h : decode s.cfg.imms s.ir = .known i) : execute s = exec i s := by
  simp only [execute, h]

theorem execute_of_unknown {s : State} {op : Opcode} (h : decode s.cfg.imms s.ir = .unknown op) :
    execute s = execUnknown op s := by
  simp only [execute, h]

theorem fetch_phase {s u : State} (h : fetch s = .ok u) : u.phase = .execute := by
  rcases fetch_cases s with ⟨-, -, e⟩ | ⟨-, -, e⟩ | ⟨-, e⟩ <;> rw [e] at h
  · exact Except.ok.inj h ▸ rfl
  · exact absurd h nofun
  · exact Except.ok.inj h ▸ rfl

/-- A step that answers a next state is an EXECUTE, of the state itself or of the one FETCH gives. -/
theorem step_eq_execute {s t : State} (h : step s = .next t) :
    ∃ u, ((s.phase = .fetch ∧ fetch s = .ok u) ∨ (s.phase = .execute ∧ u = s)) ∧ execute u = .next t := by
  obtain ⟨u, hu, -, ⟨i, hd, hx⟩ | ⟨op, hd, hx⟩⟩ := step_cases h
  · exact ⟨u, hu, (execute_of_known hd).trans hx⟩
  · exact ⟨u, hu, (execute_of_unknown hd).trans hx⟩

/-- The phase after EXECUTE is HALTED exactly when the flag is set (R29). -/
theorem phaseAfter_eq_halted (h : Bool) : phaseAfter h = .halted ↔ h = true := by
  cases h <;> simp [phaseAfter]

/-! ## The effect of a step -/

/-- `v` differs from `s` in pc, npc, phase and trace at most. -/
structure Undisturbed (s v : State) : Prop where
  cfg : v.cfg = s.cfg
  regs : v.regs = s.regs
  ir : v.ir = s.ir
  halted : v.halted = s.halted
  ram : v.ram = s.ram

/-- The opcodes of the instructions that write a register: the "writes" column of R21. -/
def rdWriters : List Opcode := [0x01#7, 0x02#7, 0x03#7, 0x04#7, 0x0E#7, 0x13#7]

theorem rdWriters_run : ∀ op ∈ rdWriters, op ∈ definedOpcodes ∧ op ≠ 0x27#7 := by decide

/-- What a step from `s` to `t` can do, by the word it executed, which it leaves in `ir`: the parameters stay, slot 0 is
zero and the phase follows the halt flag (R29); only SYSTEM and an unknown opcode set that flag (R26); only `rd` of a
writing instruction changes (R21); and RAM changes by STORE's one byte alone (R90). -/
structure StepEffect (s t : State) : Prop where
  cfg : t.cfg = s.cfg
  slot0 : t.regs[0] = 0#32
  phase : t.phase = phaseAfter t.halted
  halted : t.halted = true ↔
    s.halted = true ∨ t.ir.extractLsb' 0 7 = 0x27#7 ∨ t.ir.extractLsb' 0 7 ∉ definedOpcodes
  regs : ∀ r, t.readReg r ≠ s.readReg r → r = rdOf t.ir ∧ r ≠ 0#5 ∧ t.ir.extractLsb' 0 7 ∈ rdWriters
  ram : t.ram = s.ram ∨ ∃ ea, ea = s.readReg (rs1Of t.ir) + storeOffset s.cfg.imms.storeImm t.ir ∧
    t.ir.extractLsb' 0 7 = 0x10#7 ∧ inRamWindow s.cfg ea ∧
    t.ram = Memory.write s.ram ea.toNat ((s.readReg (rdOf t.ir)).extractLsb' 0 8)

namespace StepEffect

/-- A defined opcode other than SYSTEM's leaves the halt flag to what it was (R26). -/
theorem halted_of_runs {op : Opcode} {b b' : Bool} (hop : op ∈ definedOpcodes ∧ op ≠ 0x27#7) (hb : b' = b) :
    b' = true ↔ b = true ∨ op = 0x27#7 ∨ op ∉ definedOpcodes := by
  simp [hop, hb]

/-- An EXECUTE that writes only `rd` has the effect of a step. -/
theorem of_writeReg {s v : State} (hv : Undisturbed s v) (x : Word) (hop : s.ir.extractLsb' 0 7 ∈ rdWriters) :
    StepEffect s (v.writeReg (rdOf s.ir) x).endExecute where
  cfg := by simp [hv.cfg]
  slot0 := by simp
  phase := rfl
  halted := by
    simpa [hv.ir] using halted_of_runs (rdWriters_run _ hop) hv.halted
  regs r hr := by
    have hread : v.readReg r = s.readReg r := State.readReg_congr hv.regs r
    simp only [State.readReg_endExecute, State.readReg_writeReg, hread, ne_eq, ite_eq_right_iff, not_forall] at hr
    obtain ⟨⟨hrd, h0⟩, -⟩ := hr
    subst hrd
    simpa [hv.ir] using ⟨h0, hop⟩
  ram := .inl (by simp [hv.ram])

/-- An EXECUTE that writes nothing and goes on has the effect of a step. -/
theorem of_undisturbed {s v : State} (hv : Undisturbed s v)
    (hop : s.ir.extractLsb' 0 7 ∈ definedOpcodes ∧ s.ir.extractLsb' 0 7 ≠ 0x27#7) : StepEffect s v.endExecute where
  cfg := by simp [hv.cfg]
  slot0 := by simp
  phase := rfl
  halted := by simpa [hv.ir] using halted_of_runs hop hv.halted
  regs r hr := absurd ((State.readReg_endExecute v r).trans (State.readReg_congr hv.regs r)) hr
  ram := .inl (by simp [hv.ram])

/-- An EXECUTE that sets the halt flag has the effect of a step. -/
theorem of_halts {s v : State} (hcfg : v.cfg = s.cfg) (hregs : v.regs = s.regs) (hir : v.ir = s.ir)
    (hram : v.ram = s.ram) (hhalt : v.halted = true)
    (hop : s.ir.extractLsb' 0 7 = 0x27#7 ∨ s.ir.extractLsb' 0 7 ∉ definedOpcodes) : StepEffect s v.endExecute where
  cfg := by simp [hcfg]
  slot0 := by simp
  phase := rfl
  halted := by simp [hir, hhalt, hop]
  regs r hr := absurd ((State.readReg_endExecute v r).trans (State.readReg_congr hregs r)) hr
  ram := .inl (by simp [hram])

/-- STORE to RAM has the effect of a step (R90). -/
theorem of_ramWrite {s : State} (hop : s.ir.extractLsb' 0 7 = 0x10#7)
    (hea : inRamWindow s.cfg (s.effAddr (rs1Of s.ir) (storeOffset s.cfg.imms.storeImm s.ir))) :
    StepEffect s (s.beginExecute.setRam (Memory.write s.ram
      (s.effAddr (rs1Of s.ir) (storeOffset s.cfg.imms.storeImm s.ir)).toNat
      ((s.readReg (rdOf s.ir)).extractLsb' 0 8))).endExecute where
  cfg := rfl
  slot0 := by simp
  phase := rfl
  halted := halted_of_runs (op := s.ir.extractLsb' 0 7) (by rw [hop]; decide) rfl
  regs r hr := absurd (by simp) hr
  ram := .inr ⟨_, rfl, hop, hea, rfl⟩

/-- The effect is one of what FETCH leaves alone: it is the same seen from the state before FETCH. -/
theorem of_same {s u t : State} (h : StepEffect u t) (hcfg : u.cfg = s.cfg) (hregs : u.regs = s.regs)
    (hhalt : u.halted = s.halted) (hram : u.ram = s.ram) : StepEffect s t := by
  have hread : ∀ r, u.readReg r = s.readReg r := State.readReg_congr hregs
  obtain ⟨ecfg, eslot, ephase, ehalt, eregs, eram⟩ := h
  simp only [hcfg, hread, hhalt, hram] at ecfg ehalt eregs eram
  exact ⟨ecfg, eslot, ephase, ehalt, eregs, eram⟩

end StepEffect

theorem Undisturbed.beginExecute (s : State) : Undisturbed s s.beginExecute := ⟨rfl, rfl, rfl, rfl, rfl⟩

theorem Undisturbed.setNpc (s : State) (a : Word) : Undisturbed s (s.beginExecute.setNpc a) := ⟨rfl, rfl, rfl, rfl, rfl⟩

theorem Undisturbed.record (s : State) (e : Event) : Undisturbed s (s.beginExecute.record e) :=
  ⟨rfl, rfl, rfl, rfl, rfl⟩

theorem StepEffect.of_load {s t : State} {imm : Word} (hop : s.ir.extractLsb' 0 7 = 0x0E#7)
    (h : execLoad (rdOf s.ir) (rs1Of s.ir) imm s = .next t) : StepEffect s t := by
  rcases execLoad_cases (rdOf s.ir) (rs1Of s.ir) imm s with ⟨-, -, e⟩ | ⟨-, -, e⟩ | ⟨-, -, e⟩ <;>
    obtain rfl := Host.Outcome.next.inj (e.symm.trans h)
  · exact .of_writeReg (.beginExecute s) _ (by rw [hop]; decide)
  · exact .of_writeReg (.record s _) _ (by rw [hop]; decide)
  · exact .of_undisturbed (.beginExecute s) (by rw [hop]; decide)

theorem StepEffect.of_store {s t : State} (hop : s.ir.extractLsb' 0 7 = 0x10#7)
    (h : execStore (rs1Of s.ir) (rdOf s.ir) (storeOffset s.cfg.imms.storeImm s.ir) s = .next t) :
    StepEffect s t := by
  have hrun : s.ir.extractLsb' 0 7 ∈ definedOpcodes ∧ s.ir.extractLsb' 0 7 ≠ 0x27#7 := by rw [hop]; decide
  rcases execStore_cases (rs1Of s.ir) (rdOf s.ir) (storeOffset s.cfg.imms.storeImm s.ir) s with
    ⟨hea, e⟩ | ⟨-, -, e⟩ | ⟨-, -, e⟩ | ⟨-, e⟩ <;> have h' := e.symm.trans h
  · exact Host.Outcome.next.inj h' ▸ .of_ramWrite hop hea
  · exact Host.Outcome.next.inj h' ▸ .of_undisturbed (.record s _) hrun
  · exact absurd h' nofun
  · exact Host.Outcome.next.inj h' ▸ .of_undisturbed (.record s _) hrun

/-- EXECUTE has the effect of a step: the nine instructions and the unknown opcode. -/
theorem execute_effect {s t : State} (h : execute s = .next t) : StepEffect s t := by
  rcases decode_cases s.cfg.imms s.ir with ⟨hop, hd⟩ | ⟨hop, hd⟩ | ⟨hop, hd⟩ | ⟨hop, hd⟩ | ⟨hop, hd⟩ | ⟨hop, hd⟩ |
    ⟨hop, hd⟩ | ⟨hop, hd⟩ | ⟨hop, hd⟩ | ⟨hop, hd⟩
  · -- LUI
    obtain rfl := Host.Outcome.next.inj ((execute_of_known hd).symm.trans h)
    exact .of_writeReg (.beginExecute s) _ (by rw [hop]; decide)
  · -- AUIPC
    obtain rfl := Host.Outcome.next.inj ((execute_of_known hd).symm.trans h)
    exact .of_writeReg (.beginExecute s) _ (by rw [hop]; decide)
  · -- JAL
    obtain rfl := Host.Outcome.next.inj ((execute_of_known hd).symm.trans h)
    exact .of_writeReg (.setNpc s _) _ (by rw [hop]; decide)
  · -- JALR
    obtain rfl := Host.Outcome.next.inj ((execute_of_known hd).symm.trans h)
    exact .of_writeReg (.setNpc s _) _ (by rw [hop]; decide)
  · -- BRANCH
    obtain rfl := Host.Outcome.next.inj ((execute_of_known hd).symm.trans h)
    split
    · exact .of_undisturbed (.setNpc s _) (by rw [hop]; decide)
    · exact .of_undisturbed (.beginExecute s) (by rw [hop]; decide)
  · -- LOAD
    exact .of_load hop ((execute_of_known hd).symm.trans h)
  · -- STORE
    exact .of_store hop ((execute_of_known hd).symm.trans h)
  · -- OP_IMM
    obtain rfl := Host.Outcome.next.inj ((execute_of_known hd).symm.trans h)
    exact .of_writeReg (.beginExecute s) _ (by rw [hop]; decide)
  · -- SYSTEM
    obtain rfl := Host.Outcome.next.inj ((execute_of_known hd).symm.trans h)
    exact .of_halts (by simp) (by simp) (by simp) (by simp) (by simp) (.inl hop)
  · -- unknown opcode
    obtain rfl := Host.Outcome.next.inj ((execute_of_unknown hd).symm.trans h)
    exact .of_halts (by simp) (by simp) (by simp) (by simp) (by simp [faultHalts]) (.inr hop)

/-- FETCH leaves the parameters, the registers, the halt flag and the RAM alone (R28). -/
theorem fetch_same {s u : State} (h : fetch s = .ok u) :
    u.cfg = s.cfg ∧ u.regs = s.regs ∧ u.halted = s.halted ∧ u.ram = s.ram := by
  rcases fetch_cases s with ⟨-, -, e⟩ | ⟨-, -, e⟩ | ⟨-, e⟩ <;> rw [e] at h
  · exact Except.ok.inj h ▸ ⟨rfl, rfl, rfl, rfl⟩
  · exact absurd h nofun
  · exact Except.ok.inj h ▸ ⟨rfl, rfl, rfl, rfl⟩

theorem step_effect {s t : State} (h : step s = .next t) : StepEffect s t := by
  obtain ⟨u, ⟨-, hf⟩ | ⟨-, rfl⟩, hx⟩ := step_eq_execute h
  · obtain ⟨hcfg, hregs, hhalt, hram⟩ := fetch_same hf
    exact (execute_effect hx).of_same hcfg hregs hhalt hram
  · exact execute_effect hx

/-! ## The invariant (R8, R20, R29, R38) -/

/-- A step's RAM stays in canonical form. -/
theorem StepEffect.wf {s t : State} (h : StepEffect s t) (hwf : Memory.wf s.ram = true) :
    Memory.wf t.ram = true := by
  obtain e | ⟨ea, -, -, -, e⟩ := h.ram <;> rw [e]
  · exact hwf
  · exact Memory.wf_write hwf _ _

/-- A step's RAM stays in its window: the one byte it can add is in it. -/
theorem StepEffect.ramInWindow {s t : State} (h : StepEffect s t) (hwin : ramInWindow s) : ramInWindow t := by
  intro c hc
  rw [h.cfg]
  obtain e | ⟨ea, -, -, hea, e⟩ := h.ram <;> rw [e] at hc
  · exact hwin c hc
  · obtain hold | ⟨rfl, -⟩ := Memory.mem_write hc
    · exact hwin c hold
    · exact hea

/-- Settles O34: the parameters stay, RAM changes by at most one byte of the window, and EXECUTE ends by clearing slot 0
and taking the phase from the halt flag. -/
theorem everyStepKeepsInvariant : Obligations.EveryStepKeepsInvariant := by
  intro s t hinv hstep
  obtain ⟨hcfg, hwf, hwin, -, -⟩ := hinv
  have he := step_effect hstep
  exact ⟨he.cfg ▸ hcfg, he.wf hwf, he.ramInWindow hwin, he.slot0, he.phase ▸ (phaseAfter_eq_halted _).symm⟩

theorem valid_resetConfig : resetConfig.valid := by decide

/-- The start of a run meets the invariant: the image is cut at the end of the RAM window (R36, R39). -/
theorem boot_inv {c : Config} (hc : c.valid) (image : List Byte) : (State.boot c image).Inv := by
  refine ⟨hc, Memory.wf_loadImage Memory.wf_nil _ _, fun d hd => ?_, rfl, by simp [State.boot, State.reset]⟩
  obtain hnil | ⟨hlo, hhi⟩ := Memory.mem_loadImage hd
  · exact absurd hnil List.not_mem_nil
  · have hlen : (image.take c.ramSize.toNat).length ≤ c.ramSize.toNat := List.length_take_le _ _
    exact ⟨hlo, Nat.lt_of_lt_of_le hhi (Nat.add_le_add_left hlen _)⟩

/-- Settles O33: `State.reset` is the start of a run with the empty image. -/
theorem invariantAtStart : Obligations.InvariantAtStart :=
  ⟨fun _ image hc => boot_inv hc image, boot_inv valid_resetConfig []⟩

/-! ## The registers and the halt flag -/

@[simp] theorem State.writeReg_zero (s : State) (v : Word) : s.writeReg 0#5 v = s := rfl

/-- Settles O30: EXECUTE ends by clearing slot 0, which no read shows. -/
theorem registerZeroIsHardwired : Obligations.RegisterZeroIsHardwired :=
  fun s => ⟨s.readReg_zero, s.writeReg_zero, fun t h => ⟨t.readReg_zero, (step_effect h).slot0⟩⟩

/-- Settles O40: of the opcodes, only these two kinds set the flag, and no operation clears it. -/
theorem onlySystemAndUnknownHalt : Obligations.OnlySystemAndUnknownHalt :=
  fun _ _ h => (step_effect h).halted

/-- Settles O45: an instruction writes its rd field or no register. -/
theorem onlyDestinationRegisterChanges : Obligations.OnlyDestinationRegisterChanges :=
  fun _ _ r h => (step_effect h).regs r

/-- Settles O28: a write port is `writeReg` when enabled, and register 0 discards the write. -/
theorem registerFilePorts : Obligations.RegisterFilePorts := by
  intro s wa wd we
  refine ⟨rfl, ?_, ?_⟩
  · rintro (rfl | rfl)
    · cases we <;> rfl
    · rfl
  · rintro hwa rfl
    exact ⟨(s.readReg_writeReg_self wa wd).trans (if_neg hwa), fun r hr => s.readReg_writeReg_of_ne wd hr⟩

/-- Settles O31: the register file starts as zeros. -/
theorem registersAtStartOfRun : Obligations.RegistersAtStartOfRun := by
  refine fun c image => ⟨rfl, fun r => ?_, rfl, rfl, rfl, rfl⟩
  simp [State.readReg, State.boot, State.reset]

/-! ## The cycle -/

/-- Settles O37: FETCH answers a state in phase EXECUTE, and the step from that is its EXECUTE. -/
theorem stepFusesFetchAndExecute : Obligations.StepFusesFetchAndExecute := fun _ u hp hf =>
  have hu : u.phase = .execute := fetch_phase hf
  ⟨hu, (step_of_fetch hp hf).trans (step_of_execute hu).symm⟩

/-- FETCH with its four bytes in RAM latches their word (R28, R42). -/
theorem fetch_of_ram {s : State} (hin : inRamWindow s.cfg s.pc) (hfit : fitsRam s.cfg s.pc .word) :
    fetch s = .ok (s.latchIr (Memory.load s.ram s.pc.toNat .word)) := by
  rcases fetch_cases s with ⟨-, -, e⟩ | ⟨-, hover, -⟩ | ⟨hout, -⟩
  · exact e
  · exact absurd hfit hover
  · exact absurd hin hout

/-- FETCH outside RAM takes a read fault and latches 0 (R28, R47, R48). -/
theorem fetch_of_outside {s : State} (hout : ¬inRamWindow s.cfg s.pc) :
    fetch s = .ok ((s.takeFault (.busReadFault s.pc)).latchIr 0#32) := by
  rcases fetch_cases s with ⟨hin, -, -⟩ | ⟨hin, -, -⟩ | ⟨-, e⟩
  · exact absurd hin hout
  · exact absurd hin hout
  · exact e

/-- Settles O35: both phases end in the EXECUTE of the decoded word. -/
theorem stepRunsDecodedInstruction : Obligations.StepRunsDecodedInstruction :=
  ⟨fun _ _ hp hin hfit hd => (step_of_fetch hp (fetch_of_ram hin hfit)).trans (execute_of_known hd),
    fun _ _ hp hd => (step_of_execute hp).trans (execute_of_known hd)⟩

/-- Settles O36: a fetch outside RAM takes the read fault, whose word is 0. -/
theorem fetchReadsWordAtPc : Obligations.FetchReadsWordAtPc := by
  refine ⟨fun s s' w h => ?_, fun s hout => ⟨_, fetch_of_outside hout, rfl, rfl⟩, fun r => by rfl⟩
  simp only [fetch, h]
  rfl

/-- No instruction ends in a fault of the model. -/
theorem exec_ne_fault (i : Instr) (s : State) (f : Fault) : exec i s ≠ .fault f := by
  cases i with
  | load rd rs1 imm =>
    rcases execLoad_cases rd rs1 imm s with ⟨-, -, e⟩ | ⟨-, -, e⟩ | ⟨-, -, e⟩ <;> exact fun h => nomatch e.symm.trans h
  | store rs1 rs2 imm =>
    rcases execStore_cases rs1 rs2 imm s with ⟨-, e⟩ | ⟨-, -, e⟩ | ⟨-, -, e⟩ | ⟨-, e⟩ <;>
      exact fun h => nomatch e.symm.trans h
  | _ => exact nofun

theorem execute_ne_fault (s : State) (f : Fault) : execute s ≠ .fault f := by
  cases hd : decode s.cfg.imms s.ir with
  | known i => exact execute_of_known hd ▸ exec_ne_fault i s f
  | unknown op => rw [execute_of_unknown hd]; exact nofun

/-- Only phase HALTED answers a fault (R30). -/
theorem phase_of_step_fault {s : State} {f : Fault} (h : step s = .fault f) : s.phase = .halted := by
  cases hp : s.phase with
  | fetch =>
    cases hf : fetch s with
    | ok u => exact absurd ((step_of_fetch hp hf).symm.trans h) (execute_ne_fault u f)
    | error r => exact nomatch (step_of_fetch_error hp hf).symm.trans h
  | execute => exact absurd ((step_of_execute hp).symm.trans h) (execute_ne_fault s f)
  | halted => rfl

/-- A run of one step or more from phase HALTED stops at its first step. -/
theorem run_of_halted {s : State} (hp : s.phase = .halted) (k : Nat) :
    Host.Core.run Sys2Proof.core (k + 1) s = .fault .halted := by
  have hstep : Sys2Proof.core.step s = .fault .halted := step_of_halted hp
  simp only [Host.Core.run, hstep]

/-- Settles O39: no instruction answers a fault, so only phase HALTED does, and a run stops there. -/
theorem haltedHasNoStep : Obligations.HaltedHasNoStep := by
  refine fun s => ⟨⟨step_of_halted, phase_of_step_fault⟩, fun hp k t hk hrun => ?_⟩
  obtain ⟨n, rfl⟩ := Nat.exists_eq_add_of_lt hk
  rw [Nat.zero_add, run_of_halted hp n] at hrun
  exact nomatch hrun

/-! ## What a step does not read -/

/-- An outcome with its next state changed by `f`. -/
def mapNext (f : State → State) : Host.Outcome State Fault Refusal → Host.Outcome State Fault Refusal
  | .next s => .next (f s)
  | .fault r => .fault r
  | .refused r => .refused r

/-- A change of the state that keeps what the bus decodes and reads and that faults do not see, passes through a bus
read. -/
theorem memRead_map (f : State → State) (hcfg : ∀ s, (f s).cfg = s.cfg) (hram : ∀ s, (f s).ram = s.ram)
    (hfault : ∀ s e, (f s).takeFault e = f (s.takeFault e)) (s : State) (a : Word) (n : Width) :
    memRead (f s) a n = (memRead s a n).map (Prod.map id f) := by
  unfold memRead
  rw [hcfg, hram]
  split
  · split <;> rfl
  · rw [hfault]; rfl
  · rw [hfault]; rfl

/-! ### npc and ir (U9) -/

/-- FETCH overwrites ir and passes npc on (R28). -/
theorem fetch_of_npc_ir (s : State) (a b : Word) :
    fetch { s with npc := a, ir := b } = (fetch s).map (State.setNpc · a) := by
  have hread := memRead_map (fun s => { s with npc := a, ir := b }) (fun _ => rfl) (fun _ => rfl)
    (fun _ e => by cases e <;> rfl) s s.pc .word
  simp only [fetch, hread]
  cases memRead s s.pc .word <;> rfl

/-- Every instruction starts by overwriting npc (R24, R29). -/
theorem exec_setNpc (i : Instr) (s : State) (a : Word) : exec i (s.setNpc a) = exec i s := by
  cases i <;> rfl

theorem execute_setNpc (s : State) (a : Word) : execute (s.setNpc a) = execute s := by
  cases hd : decode s.cfg.imms s.ir with
  | known i => rw [execute_of_known hd, execute_of_known (s := s.setNpc a) hd, exec_setNpc]
  | unknown op => rw [execute_of_unknown hd, execute_of_unknown (s := s.setNpc a) hd]; rfl

/-- Settles O51: FETCH overwrites ir, and EXECUTE overwrites npc. -/
theorem resetNpcAndIrAreNotRead : Obligations.ResetNpcAndIrAreNotRead := by
  intro s a b hp
  have hfetch := fetch_of_npc_ir s a b
  cases hf : fetch s with
  | ok u =>
    rw [hf] at hfetch
    rw [step_of_fetch hp hf, step_of_fetch (s := { s with npc := a, ir := b }) hp hfetch, execute_setNpc]
  | error r =>
    rw [hf] at hfetch
    rw [step_of_fetch_error hp hf, step_of_fetch_error (s := { s with npc := a, ir := b }) hp hfetch]

/-! ### The trace (R34, R96) -/

/-- `s` with the events `past` before those of its own trace. -/
def State.withPast (past : List Event) (s : State) : State := { s with trace := past ++ s.trace }

section
variable (past : List Event) (s : State)

@[simp] theorem State.withPast_cfg : (s.withPast past).cfg = s.cfg := rfl
@[simp] theorem State.withPast_pc : (s.withPast past).pc = s.pc := rfl
@[simp] theorem State.withPast_ir : (s.withPast past).ir = s.ir := rfl
@[simp] theorem State.withPast_phase : (s.withPast past).phase = s.phase := rfl
@[simp] theorem State.withPast_ram : (s.withPast past).ram = s.ram := rfl
@[simp] theorem State.withPast_trace : (s.withPast past).trace = past ++ s.trace := rfl
@[simp] theorem State.readReg_withPast (r : RegIdx) : (s.withPast past).readReg r = s.readReg r := rfl
@[simp] theorem State.effAddr_withPast (r : RegIdx) (off : Word) :
    (s.withPast past).effAddr r off = s.effAddr r off := rfl

@[simp] theorem State.beginExecute_withPast : (s.withPast past).beginExecute = s.beginExecute.withPast past := rfl
@[simp] theorem State.endExecute_withPast : (s.withPast past).endExecute = s.endExecute.withPast past := rfl
@[simp] theorem State.setNpc_withPast (a : Word) : (s.withPast past).setNpc a = (s.setNpc a).withPast past := rfl
@[simp] theorem State.setHalted_withPast : (s.withPast past).setHalted = s.setHalted.withPast past := rfl
@[simp] theorem State.setRam_withPast (m : Memory) : (s.withPast past).setRam m = (s.setRam m).withPast past := rfl
@[simp] theorem State.latchIr_withPast (w : Word) : (s.withPast past).latchIr w = (s.latchIr w).withPast past := rfl

@[simp] theorem State.writeReg_withPast (r : RegIdx) (v : Word) :
    (s.withPast past).writeReg r v = (s.writeReg r v).withPast past := by
  unfold State.writeReg
  split <;> rfl

/-- An event appended comes after the past. -/
@[simp] theorem State.record_withPast (e : Event) : (s.withPast past).record e = (s.record e).withPast past := by
  simp [State.record, State.withPast]

@[simp] theorem State.emit_withPast (e : Event) : (s.withPast past).emit e = (s.emit e).withPast past :=
  s.record_withPast past e

@[simp] theorem State.takeFault_withPast (f : BlockFault) :
    (s.withPast past).takeFault f = (s.takeFault f).withPast past := by
  cases f <;> simp [State.takeFault, faultHalts]

@[simp] theorem State.haltDiag_withPast : (s.withPast past).haltDiag = s.haltDiag.withPast past := by
  unfold State.haltDiag
  split <;> simp_all

theorem memRead_withPast (a : Word) (n : Width) :
    memRead (s.withPast past) a n = (memRead s a n).map (Prod.map id (State.withPast past)) :=
  memRead_map (State.withPast past) (fun _ => rfl) (fun _ => rfl) (State.takeFault_withPast past) s a n

theorem memWrite_withPast (a : Word) (n : Width) (v : Word) :
    memWrite (s.withPast past) a n v = (memWrite s a n v).map (State.withPast past) := by
  unfold memWrite
  rw [State.withPast_cfg]
  split
  · split <;> rfl
  · split
    · rw [State.emit_withPast]; rfl
    · rfl
  · rw [State.takeFault_withPast]; rfl

theorem fetch_withPast : fetch (s.withPast past) = (fetch s).map (State.withPast past) := by
  simp only [fetch, memRead_withPast, State.withPast_pc]
  cases memRead s s.pc .word <;> rfl

/-- An instruction does the same whatever the past (R34). -/
theorem exec_withPast (i : Instr) : exec i (s.withPast past) = mapNext (State.withPast past) (exec i s) := by
  cases i with
  | lui rd imm => simp [exec, execLui, mapNext]
  | auipc rd imm => simp [exec, execAuipc, mapNext]
  | jal rd off => simp [exec, execJal, State.jumpAndLink, mapNext]
  | jalr rd rs1 imm => simp [exec, execJalr, State.jumpAndLink, mapNext]
  | branch rs1 rs2 off =>
    by_cases heq : s.readReg rs1 = s.readReg rs2 <;> simp [exec, execBranch, mapNext, heq]
  | load rd rs1 imm =>
    simp only [exec, execLoad, State.beginExecute_withPast, State.effAddr_withPast, memRead_withPast,
      State.withPast_cfg]
    split
    · cases memRead s.beginExecute (s.effAddr rs1 imm) .byte <;> simp [Except.map, mapNext]
    · rfl
  | store rs1 rs2 imm =>
    simp only [exec, execStore, State.beginExecute_withPast, State.effAddr_withPast, State.readReg_withPast,
      memWrite_withPast]
    cases memWrite s.beginExecute (s.effAddr rs1 imm) .byte (((s.readReg rs2).extractLsb' 0 8).setWidth 32) <;>
      simp [Except.map, mapNext]
  | opImm rd rs1 imm => simp [exec, execOpImm, mapNext]
  | system => simp [exec, execSystem, mapNext]

theorem execute_withPast : execute (s.withPast past) = mapNext (State.withPast past) (execute s) := by
  cases hd : decode s.cfg.imms s.ir with
  | known i => rw [execute_of_known hd, execute_of_known (s := s.withPast past) hd, exec_withPast]
  | unknown op =>
    rw [execute_of_unknown hd, execute_of_unknown (s := s.withPast past) hd]
    simp [execUnknown, mapNext]

/-- A step does the same whatever the past: it reads no event and only appends (R34, R96). -/
theorem step_withPast : step (s.withPast past) = mapNext (State.withPast past) (step s) := by
  cases hp : s.phase with
  | fetch =>
    have hfetch := fetch_withPast past s
    cases hf : fetch s with
    | ok u =>
      rw [hf] at hfetch
      rw [step_of_fetch hp hf, step_of_fetch (s := s.withPast past) hp hfetch, execute_withPast]
    | error r =>
      rw [hf] at hfetch
      rw [step_of_fetch_error hp hf, step_of_fetch_error (s := s.withPast past) hp hfetch]
      rfl
  | execute => rw [step_of_execute hp, step_of_execute (s := s.withPast past) hp, execute_withPast]
  | halted => rw [step_of_halted hp, step_of_halted (s := s.withPast past) hp]; rfl

end

theorem mapNext_eq_next {f : State → State} {o : Host.Outcome State Fault Refusal} {t : State}
    (h : mapNext f o = .next t) : ∃ u, o = .next u ∧ t = f u := by
  cases o with
  | next u => exact ⟨u, rfl, (Host.Outcome.next.inj h).symm⟩
  | fault r => exact nomatch h
  | refused r => exact nomatch h

theorem State.withPast_of_noTrace (s : State) (past : List Event) :
    State.withPast past { s with trace := [] } = { s with trace := past } := by
  simp [State.withPast]

/-- Settles O52: the state is the one with no events behind it, with its trace as the past; so is the state with any
other trace, and the step appends the events it records from none. -/
theorem traceIsNotRead : Obligations.TraceIsNotRead := by
  intro s t tr hstep
  have hnow := step_withPast s.trace { s with trace := [] }
  rw [State.withPast_of_noTrace, hstep] at hnow
  obtain ⟨u, hu, rfl⟩ := mapNext_eq_next hnow.symm
  refine ⟨u.trace, rfl, ?_⟩
  rw [← State.withPast_of_noTrace, step_withPast, hu]
  rfl

/-- Settles O43: the trace grows by the events of the step, whatever it held before. -/
theorem stepsKeepParametersAndPastEvents : Obligations.StepsKeepParametersAndPastEvents := by
  intro s t hstep
  obtain ⟨es, htrace, -⟩ := traceIsNotRead s t [] hstep
  exact ⟨(step_effect hstep).cfg, es, htrace⟩

end Sys2Proof.Machine
end

section
/-! SUPPORT. The bus primitives, one equation per case of R40 (R41 to R49); what a write leaves for the next read and the
next fetch (R42, R43, R63); the events and the refusals of a step (R41, R46, R55); the digits of a rendered value (D9); and
the statements about memory and output that follow. -/

namespace Sys2Proof.Machine

/-! ## The bus decoder (R40) -/

/-- Settles O18: `route` tests the RAM window, then the output window. -/
theorem busDecodesInOrder : Obligations.BusDecodesInOrder :=
  fun _ _ => ⟨route_eq_ram, route_eq_out, route_eq_unmapped⟩

/-! ## Bus reads (R41, R42, R47, R48) -/

section
variable {s : State} {a : Word} {n : Width}

theorem memRead_of_fits (hin : inRamWindow s.cfg a) (hfit : fitsRam s.cfg a n) :
    memRead s a n = .ok (Memory.load s.ram a.toNat n, s) := by
  simp only [memRead, route_eq_ram.2 hin, if_pos hfit]

theorem memRead_of_overrun (hin : inRamWindow s.cfg a) (hover : ¬fitsRam s.cfg a n) :
    memRead s a n = .error (.ramWindowOverrun a n) := by
  simp only [memRead, route_eq_ram.2 hin, if_neg hover]

theorem memRead_of_outside (hout : ¬inRamWindow s.cfg a) :
    memRead s a n = .ok (0#32, { s with trace := s.trace ++ [.diagBusReadFault a] }) := by
  rcases memRead_cases s a n with ⟨hin, -, -⟩ | ⟨hin, -, -⟩ | ⟨-, e⟩
  · exact absurd hin hout
  · exact absurd hin hout
  · exact e

end

/-- Settles O19: a read that lies in RAM loads its bytes and gives the state back. -/
theorem ramReadIsLittleEndian : Obligations.RamReadIsLittleEndian :=
  fun s a n hin hfit => ⟨_, memRead_of_fits hin hfit, fun _ hk => Memory.byteOf_load s.ram a.toNat n hk⟩

/-- Settles O23: every read outside RAM is a read fault. -/
theorem unmappedReadFaults : Obligations.UnmappedReadFaults :=
  fun _ _ _ hram _ => memRead_of_outside hram

/-- Settles O24: every read outside RAM is a read fault, in the output window too (D7). -/
theorem windowReadFaults : Obligations.WindowReadFaults :=
  fun _ _ _ hram _ => memRead_of_outside hram

/-! ## Bus writes (R41, R43 to R46, R49) -/

section
variable {s : State} {a : Word} {n : Width} {v : Word}

theorem memWrite_of_fits (hin : inRamWindow s.cfg a) (hfit : fitsRam s.cfg a n) :
    memWrite s a n v = .ok (s.setRam (Memory.storeBytes s.ram a.toNat v n.bytes)) := by
  simp only [memWrite, route_eq_ram.2 hin, if_pos hfit]

theorem memWrite_of_overrun (hin : inRamWindow s.cfg a) (hover : ¬fitsRam s.cfg a n) :
    memWrite s a n v = .error (.ramWindowOverrun a n) := by
  simp only [memWrite, route_eq_ram.2 hin, if_neg hover]

theorem memWrite_of_unmapped (hram : ¬inRamWindow s.cfg a) (hout : ¬inOutWindow s.cfg a) :
    memWrite s a n v = .ok { s with trace := s.trace ++ [.diagBusWriteFault a] } := by
  simp only [memWrite, route_eq_unmapped.2 ⟨hram, hout⟩]
  rfl

/-- A defined write at offset `off` of the output window appends its event (R44, R45). -/
theorem memWrite_of_outEvent {off : Nat} {e : Event} (hram : ¬inRamWindow s.cfg a)
    (ha : a.toNat = s.cfg.outBase.toNat + off) (he : outEvent off n v = some e) :
    memWrite s a n v = .ok { s with trace := s.trace ++ [e] } := by
  have hoff : off < outSize := by
    rcases outEvent_some he with ⟨rfl, -, -⟩ | ⟨rfl, -, -⟩ | ⟨rfl, -, -⟩ <;> decide
  have hwin : inOutWindow s.cfg a := ⟨by omega, by omega⟩
  simp only [memWrite, route_eq_out.2 ⟨hram, hwin⟩, ha, Nat.add_sub_cancel_left, he]
  rfl

/-- A write of the output window that is not defined is refused (R46, U2). -/
theorem memWrite_of_noOutEvent (hram : ¬inRamWindow s.cfg a) (hwin : inOutWindow s.cfg a)
    (he : outEvent (a.toNat - s.cfg.outBase.toNat) n v = none) :
    memWrite s a n v = .error (.outWindowUnspecified a n) := by
  simp only [memWrite, route_eq_out.2 ⟨hram, hwin⟩, he]

end

/-- The writes of R46: no event for a byte above offset 0, any half, or a word above offset 0 other than at 4 and 8. -/
theorem outEvent_eq_none {off : Nat} {n : Width} (v : Word)
    (h : (n = .byte ∧ off ≠ 0) ∨ n = .half ∨ (n = .word ∧ off ≠ 0 ∧ off ≠ 4 ∧ off ≠ 8)) : outEvent off n v = none := by
  rw [Option.eq_none_iff_forall_ne_some]
  intro e he
  rcases outEvent_some he with ⟨rfl, hn, -⟩ | ⟨rfl, rfl, -⟩ | ⟨rfl, rfl, -⟩ <;> simp_all

/-- Settles O20: the bytes written are those of `storeBytes`. -/
theorem ramWriteSetsItsBytesOnly : Obligations.RamWriteSetsItsBytesOnly :=
  fun _ a n v hwf hin hfit => ⟨_, memWrite_of_fits hin hfit, rfl, Memory.read_storeBytes hwf a.toNat v n.bytes⟩

/-- Settles O22: `fitsRam` decides between bytes and refusal, and one byte always fits. -/
theorem ramOverrunRefused : Obligations.RamOverrunRefused := by
  refine ⟨fun s a n v hin hover => ?_, fun s a v hin => ?_⟩
  · have hfit : ¬fitsRam s.cfg a n := Nat.not_le_of_lt hover
    exact ⟨memRead_of_overrun hin hfit, memWrite_of_overrun hin hfit⟩
  · exact ⟨⟨_, memRead_of_fits hin (fitsRam_byte hin)⟩, _, memWrite_of_fits hin (fitsRam_byte hin)⟩

/-- Settles O25: a write in neither window is a write fault. -/
theorem unmappedWriteDiscarded : Obligations.UnmappedWriteDiscarded :=
  fun _ _ _ _ hram hout => memWrite_of_unmapped hram hout

/-- Settles O26: the three sub-registers are at offsets 0, 4 and 8. -/
theorem windowWritesEmit : Obligations.WindowWritesEmit :=
  fun _ _ _ hram =>
    ⟨fun h => ⟨memWrite_of_outEvent (off := 0) hram h rfl, memWrite_of_outEvent (off := 0) hram h rfl⟩,
      fun h => memWrite_of_outEvent hram h rfl, fun h => memWrite_of_outEvent hram h rfl⟩

/-- Settles O27: at these offsets and widths the window has no output event. -/
theorem otherWindowWritesRefused : Obligations.OtherWindowWritesRefused := by
  intro s a n v hram hwin h
  refine memWrite_of_noOutEvent hram hwin (outEvent_eq_none v ?_)
  obtain ⟨hlo, -⟩ := hwin
  rcases h with ⟨rfl, h0⟩ | rfl | ⟨rfl, h0, h4, h8⟩
  · exact .inl ⟨rfl, by omega⟩
  · exact .inr (.inl rfl)
  · exact .inr (.inr ⟨rfl, by omega, by omega, by omega⟩)

/-- A write transaction answers a state exactly when the write does (R52). -/
theorem transact_write (s : State) (a : Word) (n : Width) (v : Word) :
    transact s { addr := a, size := n, write := true, wdata := v } = (memWrite s a n v).map (none, ·) := by
  simp only [transact, if_true]
  cases memWrite s a n v <;> rfl

/-- A read transaction answers the value and the state of the read (R52). -/
theorem transact_read (s : State) (a : Word) (n : Width) (v : Word) :
    transact s { addr := a, size := n, write := false, wdata := v } = (memRead s a n).map (Prod.map some id) := by
  simp only [transact, Bool.false_eq_true, if_false]
  cases memRead s a n <;> rfl

/-- Settles O29: a transaction is its primitive. -/
theorem busTransactions : Obligations.BusTransactions := by
  refine fun s a n v => ⟨fun hout => ?_, fun hin hfit => ?_, fun t => ?_⟩
  · rw [transact_read, memRead_of_outside hout]; rfl
  · rw [transact_read, memRead_of_fits hin hfit]; rfl
  · rw [transact_write]
    cases memWrite s a n v <;> simp [Except.map]

/-! ## What a write leaves for the next read (R42, R43, R53) -/

/-- Loading the bytes just stored gives the low bytes of the value, zero above them. -/
theorem Memory.byteOf_load_storeBytes {m : Memory} (hm : Memory.wf m = true) (a : Nat) (v : Word) (n : Width) {k : Nat}
    (hk : k < 4) :
    byteOf (Memory.load (Memory.storeBytes m a v n.bytes) a n) k = if k < n.bytes then byteOf v k else 0#8 := by
  rw [Memory.byteOf_load _ _ _ hk, Memory.read_storeBytes hm]
  by_cases hkn : k < n.bytes
  · rw [if_pos hkn, if_pos hkn, if_pos ⟨by omega, by omega⟩, Nat.add_sub_cancel_left]
  · rw [if_neg hkn, if_neg hkn]

/-- Settles O21: the bytes stored are the bytes loaded. -/
theorem writtenValueReadsBack : Obligations.WrittenValueReadsBack :=
  fun s a n v hwf hin hfit =>
    ⟨_, _, memWrite_of_fits hin hfit, memRead_of_fits (s := s.setRam _) hin hfit,
      fun _ hk => Memory.byteOf_load_storeBytes hwf a.toNat v n hk⟩

/-- Words with the same four bytes are equal. -/
theorem word_eq_of_byteOf {v w : Word} (h : ∀ k, k < 4 → byteOf v k = byteOf w k) : v = w := by
  rw [← wordOfBytes_byteOf v, ← wordOfBytes_byteOf w, h 0 (by decide), h 1 (by decide), h 2 (by decide),
    h 3 (by decide)]

/-- A word stored loads back whole. -/
theorem Memory.load_storeBytes_word {m : Memory} (hm : Memory.wf m = true) (a : Nat) (w : Word) :
    Memory.load (Memory.storeBytes m a w 4) a .word = w :=
  word_eq_of_byteOf fun _ hk => (Memory.byteOf_load_storeBytes hm a w .word hk).trans (if_pos hk)

/-! ## RAM at the start of a run (R39) -/

/-- Settles O32: the bytes loaded are the first `RAM_SIZE` of the image. -/
theorem memoryAtStartOfRun : Obligations.MemoryAtStartOfRun := by
  refine fun c image => ⟨fun k hk => ?_, fun a ha => ?_⟩
  · have hlen : k < (image.take c.ramSize.toNat).length := by rw [List.length_take]; omega
    have hk' : k < image.length := by omega
    simp only [State.boot, Memory.read_loadImage Memory.wf_nil hlen, List.getElem_take]
    rw [List.getD_eq_getElem _ _ hk']
  · refine Memory.read_loadImage_outside [] (image.take c.ramSize.toNat) ?_
    rwa [List.length_take, Nat.min_comm]

/-! ## The word placed at pc (log entry 9) -/

theorem pokeByte_of_inside {c : Config} (m : Memory) {a : Nat} (b : Byte)
    (h : c.ramBase.toNat ≤ a ∧ a < c.ramBase.toNat + c.ramSize.toNat) : pokeByte c m a b = Memory.write m a b :=
  if_pos h

/-- A word placed wholly inside RAM is stored there as a bus write would store it. -/
theorem placeAtPc_ram {s : State} (hin : inRamWindow s.cfg s.pc) (hfit : fitsRam s.cfg s.pc .word) (w : Word) :
    (s.placeAtPc w).ram = Memory.storeBytes s.ram s.pc.toNat w 4 := by
  obtain ⟨hlo, -⟩ := hin
  simp only [fitsRam, Width.bytes] at hfit
  simp only [State.placeAtPc]
  rw [pokeByte_of_inside, pokeByte_of_inside, pokeByte_of_inside, pokeByte_of_inside]
  · rfl
  all_goals exact ⟨by omega, by omega⟩

theorem tableWord_toNat (w : Word) : tableWord 32 w.toNat = w := by
  rw [tableWord, Nat.mod_eq_of_lt w.isLt, BitVec.ofNat_toNat, BitVec.setWidth_eq]

/-- Settles O53: the fetch reads the four bytes placed, which are those of the word. -/
theorem placedWordIsExecutedNext : Obligations.PlacedWordIsExecutedNext := by
  intro s w i hwf hin hfit hd
  rw [State.withFetchWord, tableWord_toNat]
  have hload : Memory.load (s.placeAtPc w).ram s.pc.toNat .word = w := by
    rw [placeAtPc_ram hin hfit, Memory.load_storeBytes_word hwf]
  have hfetch : fetch (s.placeAtPc w) = .ok ((s.placeAtPc w).latchIr w) := by
    rw [fetch_of_ram (s := s.placeAtPc w) hin hfit]
    exact congrArg (fun x => Except.ok (State.latchIr _ x)) hload
  exact (step_of_fetch (s := s.placeAtPc w) rfl hfetch).trans
    (execute_of_known (s := (s.placeAtPc w).latchIr w) hd)

/-! ## STORE (R90) -/

/-- STORE to RAM sets its one byte. -/
theorem execStore_of_ram {s : State} {rs1 rs2 : RegIdx} {imm : Word} (hin : inRamWindow s.cfg (s.effAddr rs1 imm)) :
    execStore rs1 rs2 imm s = .next (s.beginExecute.setRam
      (Memory.write s.ram (s.effAddr rs1 imm).toNat ((s.readReg rs2).extractLsb' 0 8))).endExecute := by
  rcases execStore_cases rs1 rs2 imm s with ⟨-, e⟩ | ⟨h, -, -⟩ | ⟨h, -, -⟩ | ⟨h, -⟩
  · exact e
  · exact absurd hin (route_eq_out.1 h).1
  · exact absurd hin (route_eq_out.1 h).1
  · exact absurd hin (route_eq_unmapped.1 h).1

/-- STORE is refused exactly in the output window away from its first byte, outside RAM (R46, U2). -/
theorem execStore_refused_iff {s : State} {rs1 rs2 : RegIdx} {imm : Word} {r : Refusal} :
    execStore rs1 rs2 imm s = .refused r ↔
      ¬inRamWindow s.cfg (s.effAddr rs1 imm) ∧ inOutWindow s.cfg (s.effAddr rs1 imm) ∧
        s.effAddr rs1 imm ≠ s.cfg.outBase ∧ r = .outWindowUnspecified (s.effAddr rs1 imm) .byte := by
  rcases execStore_cases rs1 rs2 imm s with ⟨h, e⟩ | ⟨-, h, e⟩ | ⟨h, hne, e⟩ | ⟨h, e⟩ <;> rw [e]
  · exact ⟨nofun, fun ⟨hram, _⟩ => absurd h hram⟩
  · exact ⟨nofun, fun ⟨_, _, hne, _⟩ => absurd h hne⟩
  · obtain ⟨hram, hwin⟩ := route_eq_out.1 h
    exact ⟨fun hr => ⟨hram, hwin, hne, (Host.Outcome.refused.inj hr).symm⟩, fun ⟨_, _, _, hr⟩ => hr ▸ rfl⟩
  · obtain ⟨-, hout⟩ := route_eq_unmapped.1 h
    exact ⟨nofun, fun ⟨_, hwin, _⟩ => absurd hwin hout⟩

/-- Settles O8: offsets 1 to 11 are the window without its first byte. -/
theorem storeToUndefinedWindowOffsetRefused : Obligations.StoreToUndefinedWindowOffsetRefused := by
  intro rs1 rs2 imm s hram hlo hhi
  refine execStore_refused_iff.2 ⟨hram, ⟨Nat.le_of_succ_le hlo, Nat.lt_succ_of_le hhi⟩, fun heq => ?_, rfl⟩
  have hbase : (s.readReg rs1 + imm).toNat = s.cfg.outBase.toNat := congrArg BitVec.toNat heq
  omega

/-- Settles O49: STORE leaves `pc + 4` and its byte in RAM, and the fetch from there loads the four bytes. -/
theorem storeIsSeenByNextFetch : Obligations.StoreIsSeenByNextFetch := by
  intro rs1 rs2 imm s k hwf hin hfit hk hea
  have hein : inRamWindow s.cfg (s.readReg rs1 + imm) := by
    obtain ⟨hlo, -⟩ := hin
    simp only [fitsRam, Width.bytes] at hfit
    exact ⟨by omega, by omega⟩
  refine ⟨_, _, execStore_of_ram hein, rfl, fetch_of_ram (s := State.endExecute _) hin hfit, fun j hj => ?_⟩
  refine (Memory.byteOf_load _ _ .word hj).trans ((if_pos hj).trans ?_)
  refine (Memory.read_write hwf _ _ _).trans ?_
  have hj_iff : (s.pc + 4#32).toNat + j = (s.readReg rs1 + imm).toNat ↔ j = k := by rw [hea]; omega
  exact if_congr hj_iff rfl rfl

/-- Settles O44: a step changes RAM by the byte STORE writes, if at all. -/
theorem onlyStoreChangesRam : Obligations.OnlyStoreChangesRam := by
  intro s t a hstep hne
  obtain e | ⟨ea, rfl, hop, hin, e⟩ := (step_effect hstep).ram <;> rw [e] at hne
  · exact absurd rfl hne
  · exact ⟨hop, not_imp_comm.1 (Memory.read_write_of_ne s.ram _) hne, hin⟩

/-! ## The events of a step (R44, R55, R96) -/

/-- The events that executing the word `w` from `s` can record: a diagnostic, or the character that STORE to OUT_BASE
emits (R55, R95, R93). -/
inductive StepEvent (s : State) (w : Word) : Event → Prop
  | decodeFault (op : Opcode) (pc : Word) : StepEvent s w (.diagDecodeFault op pc)
  | readFault (a : Word) : StepEvent s w (.diagBusReadFault a)
  | writeFault (a : Word) : StepEvent s w (.diagBusWriteFault a)
  | halt (pc : Word) : StepEvent s w (.diagHalt pc)
  | char (hop : w.extractLsb' 0 7 = 0x10#7)
      (hea : s.readReg (rs1Of w) + storeOffset s.cfg.imms.storeImm w = s.cfg.outBase) :
      StepEvent s w (.outChar ((s.readReg (rdOf w)).extractLsb' 0 8))

/-- `t` has the trace of `s` and, after it, events of the word `w` executed from `s`. -/
def AppendsEvents (s : State) (w : Word) (t : State) : Prop :=
  ∃ es, t.trace = s.trace ++ es ∧ ∀ e ∈ es, StepEvent s w e

namespace AppendsEvents

theorem of_same {s t : State} {w : Word} (h : t.trace = s.trace) : AppendsEvents s w t :=
  ⟨[], by simp [h], by simp⟩

theorem of_one {s t : State} {w : Word} {e : Event} (h : t.trace = s.trace ++ [e]) (he : StepEvent s w e) :
    AppendsEvents s w t :=
  ⟨[e], h, by simpa using he⟩

end AppendsEvents

theorem execLoad_events {s t : State} {rd rs1 : RegIdx} {imm : Word} (w : Word)
    (h : execLoad rd rs1 imm s = .next t) : AppendsEvents s w t := by
  rcases execLoad_cases rd rs1 imm s with ⟨-, -, e⟩ | ⟨-, -, e⟩ | ⟨-, -, e⟩ <;>
    obtain rfl := Host.Outcome.next.inj (e.symm.trans h)
  · exact .of_same (by simp)
  · exact .of_one (by rw [State.endExecute_trace, State.writeReg_trace]; rfl) (.readFault _)
  · exact .of_same (by simp)

theorem execStore_events {s t : State} {w : Word} (hop : w.extractLsb' 0 7 = 0x10#7)
    (h : execStore (rs1Of w) (rdOf w) (storeOffset s.cfg.imms.storeImm w) s = .next t) : AppendsEvents s w t := by
  rcases execStore_cases (rs1Of w) (rdOf w) (storeOffset s.cfg.imms.storeImm w) s with
    ⟨-, e⟩ | ⟨-, hea, e⟩ | ⟨-, -, e⟩ | ⟨-, e⟩ <;> have h' := e.symm.trans h
  · exact Host.Outcome.next.inj h' ▸ .of_same rfl
  · exact Host.Outcome.next.inj h' ▸ .of_one rfl (.char hop hea)
  · exact absurd h' nofun
  · exact Host.Outcome.next.inj h' ▸ .of_one rfl (.writeFault _)

theorem execSystem_events {s t : State} (w : Word) (h : execSystem s = .next t) : AppendsEvents s w t := by
  obtain rfl := Host.Outcome.next.inj h
  by_cases hdiag : s.cfg.emitHaltDiag = true
  · exact .of_one (e := .diagHalt s.pc) (by simp [hdiag]) (.halt _)
  · exact .of_same (by simp [hdiag])

/-- EXECUTE records events of the word in `ir`. -/
theorem execute_events {s t : State} (h : execute s = .next t) : AppendsEvents s s.ir t := by
  rcases decode_cases s.cfg.imms s.ir with ⟨hop, hd⟩ | ⟨hop, hd⟩ | ⟨hop, hd⟩ | ⟨hop, hd⟩ | ⟨hop, hd⟩ | ⟨hop, hd⟩ |
    ⟨hop, hd⟩ | ⟨hop, hd⟩ | ⟨hop, hd⟩ | ⟨hop, hd⟩
  · -- LUI
    obtain rfl := Host.Outcome.next.inj ((execute_of_known hd).symm.trans h)
    exact .of_same (by simp)
  · -- AUIPC
    obtain rfl := Host.Outcome.next.inj ((execute_of_known hd).symm.trans h)
    exact .of_same (by simp)
  · -- JAL
    obtain rfl := Host.Outcome.next.inj ((execute_of_known hd).symm.trans h)
    exact .of_same (by simp [State.jumpAndLink])
  · -- JALR
    obtain rfl := Host.Outcome.next.inj ((execute_of_known hd).symm.trans h)
    exact .of_same (by simp [State.jumpAndLink])
  · -- BRANCH
    obtain rfl := Host.Outcome.next.inj ((execute_of_known hd).symm.trans h)
    exact .of_same (by split <;> rfl)
  · -- LOAD
    exact execLoad_events s.ir ((execute_of_known hd).symm.trans h)
  · -- STORE
    exact execStore_events hop ((execute_of_known hd).symm.trans h)
  · -- OP_IMM
    obtain rfl := Host.Outcome.next.inj ((execute_of_known hd).symm.trans h)
    exact .of_same (by simp)
  · -- SYSTEM
    exact execSystem_events s.ir ((execute_of_known hd).symm.trans h)
  · -- unknown opcode
    obtain rfl := Host.Outcome.next.inj ((execute_of_unknown hd).symm.trans h)
    exact .of_one rfl (.decodeFault _ _)

/-- EXECUTE keeps the word it executes in `ir`. -/
theorem execute_ir {s t : State} (h : execute s = .next t) : t.ir = s.ir := by
  cases hd : decode s.cfg.imms s.ir with
  | known i =>
    obtain ⟨u, rfl, -, hir⟩ := exec_ends ((execute_of_known hd).symm.trans h)
    exact hir
  | unknown op =>
    obtain rfl := Host.Outcome.next.inj ((execute_of_unknown hd).symm.trans h)
    simp

/-- An event of a word executed from the state FETCH gives is one executed from the state before: FETCH changes neither
the registers nor the parameters. -/
theorem StepEvent.of_same {s u : State} {w : Word} {e : Event} (h : StepEvent u w e) (hcfg : u.cfg = s.cfg)
    (hregs : u.regs = s.regs) : StepEvent s w e := by
  have hread : ∀ r, u.readReg r = s.readReg r := State.readReg_congr hregs
  cases h with
  | decodeFault op pc => exact .decodeFault op pc
  | readFault a => exact .readFault a
  | writeFault a => exact .writeFault a
  | halt pc => exact .halt pc
  | char hop hea =>
    rw [hread, hcfg] at hea
    exact hread _ ▸ .char hop hea

/-- FETCH records at most its read fault (R28, R48). -/
theorem fetch_events {s u : State} (h : fetch s = .ok u) (w : Word) : AppendsEvents s w u := by
  rcases fetch_cases s with ⟨-, -, e⟩ | ⟨-, -, e⟩ | ⟨-, e⟩ <;> rw [e] at h
  · exact Except.ok.inj h ▸ .of_same rfl
  · exact absurd h nofun
  · exact Except.ok.inj h ▸ .of_one rfl (.readFault _)

/-- A step records events of the word it executes, which it leaves in `ir`. -/
theorem step_events {s t : State} (h : step s = .next t) : AppendsEvents s t.ir t := by
  obtain ⟨u, ⟨-, hf⟩ | ⟨-, rfl⟩, hx⟩ := step_eq_execute h
  · obtain ⟨hcfg, hregs, -, -⟩ := fetch_same hf
    obtain ⟨es, htu, hes⟩ := fetch_events hf t.ir
    obtain ⟨es', htt, hes'⟩ := execute_events hx
    refine ⟨es ++ es', by rw [htt, htu, List.append_assoc], fun e he => ?_⟩
    rcases List.mem_append.1 he with he | he
    · exact hes e he
    · exact execute_ir hx ▸ (hes' e he).of_same hcfg hregs
  · exact execute_ir hx ▸ execute_events hx

/-- Settles O47: of the events of a step, only the character of STORE is output. -/
theorem onlyCharactersAreOutput : Obligations.OnlyCharactersAreOutput := by
  intro s t es hstep htrace
  obtain ⟨es', htrace', hes⟩ := step_events hstep
  obtain rfl : es = es' := List.append_cancel_left (htrace.symm.trans htrace')
  refine ⟨fun v => ⟨fun h => (nomatch hes _ h), fun h => (nomatch hes _ h)⟩, fun b hb => ?_⟩
  cases hes _ hb with
  | char hop hea => exact ⟨hop, rfl, hea⟩

/-! ## Where a step stops (R30, R41, R46) -/

/-- Executing the word `w` from `s` is refused for `r`: `w` is a STORE to offsets 1 to 11 of the output window outside
RAM (R46, U2). -/
def StoreRefused (s : State) (w : Word) (r : Refusal) : Prop :=
  ∃ ea, w.extractLsb' 0 7 = 0x10#7 ∧ ea = s.readReg (rs1Of w) + storeOffset s.cfg.imms.storeImm w ∧
    ¬inRamWindow s.cfg ea ∧ inOutWindow s.cfg ea ∧ ea ≠ s.cfg.outBase ∧ r = .outWindowUnspecified ea .byte

/-- Of the instructions only STORE can be refused. -/
theorem exec_refused {i : Instr} {s : State} {r : Refusal} (h : exec i s = .refused r) :
    ∃ rs1 rs2 imm, i = .store rs1 rs2 imm := by
  cases i with
  | store rs1 rs2 imm => exact ⟨rs1, rs2, imm, rfl⟩
  | load rd rs1 imm =>
    rcases execLoad_cases rd rs1 imm s with ⟨-, -, e⟩ | ⟨-, -, e⟩ | ⟨-, -, e⟩ <;> exact nomatch e.symm.trans h
  | _ => exact nomatch h

theorem execute_of_store {s : State} (hop : s.ir.extractLsb' 0 7 = 0x10#7) :
    execute s = execStore (rs1Of s.ir) (rdOf s.ir) (storeOffset s.cfg.imms.storeImm s.ir) s := by
  have hcode : (opcodeOf s.ir).toNat = 0x10 := (opcodeOf_toNat_eq (by decide)).2 hop
  have hd : decode s.cfg.imms s.ir =
      .known (.store (rs1Of s.ir) (rdOf s.ir) (storeOffset s.cfg.imms.storeImm s.ir)) := by
    simp only [decode, hcode]
  exact execute_of_known hd

/-- Only the opcode of STORE decodes to STORE (R73). -/
theorem opcode_of_decode_store {r : ImmReadings} {w : Word} {rs1 rs2 : RegIdx} {imm : Word}
    (h : decode r w = .known (.store rs1 rs2 imm)) : w.extractLsb' 0 7 = 0x10#7 := by
  rcases decode_cases r w with ⟨hop, hd⟩ | ⟨hop, hd⟩ | ⟨hop, hd⟩ | ⟨hop, hd⟩ | ⟨hop, hd⟩ | ⟨hop, hd⟩ |
    ⟨hop, hd⟩ | ⟨hop, hd⟩ | ⟨hop, hd⟩ | ⟨hop, hd⟩ <;> cases hd.symm.trans h
  exact hop

theorem execute_refused_iff {s : State} {r : Refusal} : execute s = .refused r ↔ StoreRefused s s.ir r := by
  constructor
  · intro h
    have hop : s.ir.extractLsb' 0 7 = 0x10#7 := by
      cases hd : decode s.cfg.imms s.ir with
      | known i =>
        obtain ⟨rs1, rs2, imm, rfl⟩ := exec_refused ((execute_of_known hd).symm.trans h)
        exact opcode_of_decode_store hd
      | unknown op => exact nomatch (execute_of_unknown hd).symm.trans h
    rw [execute_of_store hop] at h
    exact ⟨_, hop, rfl, execStore_refused_iff.1 h⟩
  · rintro ⟨ea, hop, rfl, h⟩
    rw [execute_of_store hop]
    exact execStore_refused_iff.2 h

/-- The word about to be executed is what the step's EXECUTE finds in `ir`, with the registers and parameters of `s`. -/
theorem step_of_aboutToExecute {s : State} {w : Word} (h : AboutToExecute s w) :
    ∃ u, step s = execute u ∧ u.ir = w ∧ u.cfg = s.cfg ∧ u.regs = s.regs := by
  obtain ⟨hp, hin, hfit, rfl⟩ | ⟨hp, rfl⟩ := h
  · exact ⟨_, step_of_fetch hp (fetch_of_ram hin hfit), rfl, rfl, rfl⟩
  · exact ⟨s, step_of_execute hp, rfl, rfl, rfl⟩

theorem StoreRefused.congr {s u : State} (hcfg : u.cfg = s.cfg) (hregs : u.regs = s.regs) (w : Word) (r : Refusal) :
    StoreRefused u w r ↔ StoreRefused s w r := by
  simp only [StoreRefused, hcfg, State.readReg_congr hregs]

/-- The word about to be executed is refused exactly as a STORE is. -/
theorem step_refused_iff_of_aboutToExecute {s : State} {w : Word} (h : AboutToExecute s w) (r : Refusal) :
    step s = .refused r ↔ StoreRefused s w r := by
  obtain ⟨u, hstep, rfl, hcfg, hregs⟩ := step_of_aboutToExecute h
  rw [hstep, execute_refused_iff, StoreRefused.congr hcfg hregs]

/-- A step stops for a refusal only at a fetch that overruns RAM, or with a word about to be executed (R41): the word 0
that a faulting fetch latches is no STORE. -/
theorem step_refused_cases {s : State} {r : Refusal} (h : step s = .refused r) :
    (s.phase = .fetch ∧ inRamWindow s.cfg s.pc ∧ ¬fitsRam s.cfg s.pc .word ∧ r = .ramWindowOverrun s.pc .word) ∨
    ∃ w, AboutToExecute s w := by
  cases hp : s.phase with
  | fetch =>
    rcases fetch_cases s with ⟨hin, hfit, -⟩ | ⟨hin, hover, e⟩ | ⟨-, e⟩
    · exact .inr ⟨_, .inl ⟨hp, hin, hfit, rfl⟩⟩
    · exact .inl ⟨rfl, hin, hover, (Host.Outcome.refused.inj ((step_of_fetch_error hp e).symm.trans h)).symm⟩
    · obtain ⟨ea, hop, -⟩ := execute_refused_iff.1 ((step_of_fetch hp e).symm.trans h)
      exact absurd hop (by rw [State.latchIr_ir]; decide)
  | execute => exact .inr ⟨_, .inr ⟨hp, rfl⟩⟩
  | halted => exact nomatch (step_of_halted hp).symm.trans h

/-- Settles O48: faults are those of phase HALTED; refusals are those of an overrunning fetch and of STORE. -/
theorem stepStopsOnlyWhereSpecStops : Obligations.StepStopsOnlyWhereSpecStops := by
  refine fun s => ⟨fun f => ⟨fun h => ?_, ?_⟩, fun r => ⟨fun h => ?_, ?_⟩⟩
  · exact ⟨phase_of_step_fault h, by cases f; rfl⟩
  · rintro ⟨hp, rfl⟩
    exact step_of_halted hp
  · refine (step_refused_cases h).imp_right fun ⟨w, hw⟩ => ?_
    obtain ⟨ea, hstore⟩ := (step_refused_iff_of_aboutToExecute hw r).1 h
    exact ⟨w, ea, hw, hstore⟩
  · rintro (⟨hp, hin, hover, rfl⟩ | ⟨w, ea, hw, hstore⟩)
    · refine step_of_fetch_error hp ?_
      simp only [fetch, memRead_of_overrun hin hover]
    · exact (step_refused_iff_of_aboutToExecute hw r).2 ⟨ea, hstore⟩

/-! ## The text of a value (R44, D9) -/

/-- With enough fuel, the digits of a positive number are the library's, most significant first. -/
theorem digits_eq_reverse {b fuel n : Nat} (hb : 1 < b) (hn : n < b ^ fuel) (h0 : 0 < n) :
    digits b fuel n = (Nat.digits b n).reverse := by
  induction fuel generalizing n with
  | zero => rw [pow_zero] at hn; omega
  | succ fuel ih =>
    rw [digits]
    split
    · next hlt => rw [Nat.digits_of_lt b n h0.ne' hlt]; rfl
    · next hge =>
      have hdiv : n / b < b ^ fuel := Nat.div_lt_of_lt_mul (by rwa [← pow_succ'])
      rw [ih hdiv (Nat.div_pos (Nat.le_of_not_lt hge) (by omega)), Nat.digits_def' hb h0, List.reverse_cons]

theorem digits_zero {b : Nat} (hb : 0 < b) (fuel : Nat) : digits b (fuel + 1) 0 = [0] := if_pos hb

/-- `ds` is the text of `n` in base `b`: digits, most significant first, that denote it, with no leading zeros. -/
abbrev IsNumeral (b n : Nat) (ds : List Nat) : Prop :=
  ds ≠ [] ∧ (∀ d ∈ ds, d < b) ∧ ds.foldl (fun m d => b * m + d) 0 = n ∧ (ds.head? = some 0 → ds = [0])

theorem foldl_reverse_digits (b n : Nat) : (Nat.digits b n).reverse.foldl (fun m d => b * m + d) 0 = n := by
  have h := Nat.ofDigits_digits b n
  rw [Nat.ofDigits_eq_foldr] at h
  simpa [List.foldl_reverse, Nat.add_comm] using h

theorem isNumeral_digits {b fuel n : Nat} (hb : 1 < b) (hn : n < b ^ (fuel + 1)) :
    IsNumeral b n (digits b (fuel + 1) n) := by
  rcases Nat.eq_zero_or_pos n with rfl | h0
  · rw [digits_zero (by omega)]
    exact ⟨List.cons_ne_nil _ _, by simpa using (by omega : 0 < b), rfl, fun _ => rfl⟩
  · rw [digits_eq_reverse hb hn h0]
    have hne : Nat.digits b n ≠ [] := Nat.digits_ne_nil_iff_ne_zero.2 h0.ne'
    refine ⟨by simpa using hne, fun d hd => Nat.digits_lt_base hb (List.mem_reverse.1 hd),
      foldl_reverse_digits b n, fun hhead => ?_⟩
    rw [List.head?_reverse, List.getLast?_eq_getLast_of_ne_nil hne] at hhead
    exact absurd (Option.some.inj hhead) (Nat.getLast_digit_ne_zero b h0.ne')

/-- Settles O57: eight digits of base 16 hold every value. -/
theorem hexTextDenotesValue : Obligations.HexTextDenotesValue :=
  fun v => ⟨_, rfl, isNumeral_digits (by decide) v.isLt⟩

/-- Settles O58: ten decimal digits hold every magnitude up to 2^31. -/
theorem decimalTextDenotesSignedValue : Obligations.DecimalTextDenotesSignedValue := by
  refine fun v => ⟨_, rfl, isNumeral_digits (by decide) ?_⟩
  have hlo := v.le_toInt
  have hhi := v.toInt_lt
  omega

end Sys2Proof.Machine
end

section
/-! SUPPORT. Decoding by opcode, one equation per row of R73; the value of each immediate as a number (R68 to R72); the
two directions of packing and unpacking a word (R67, R74, R77); and the statements about the encoding that follow. -/

namespace Sys2Proof

open Laws.EncodedOpcode (rowOpcode)

/-! ## Decoding by opcode (R73) -/

section
variable {r : ImmReadings} {w : Word}

theorem decode_of_lui (h : w.extractLsb' 0 7 = 0x01#7) : decode r w = .known (.lui (rdOf w) (immU w)) := by
  simp only [decode, (opcodeOf_toNat_eq (by decide)).2 h]

theorem decode_of_auipc (h : w.extractLsb' 0 7 = 0x02#7) : decode r w = .known (.auipc (rdOf w) (immU w)) := by
  simp only [decode, (opcodeOf_toNat_eq (by decide)).2 h]

theorem decode_of_jal (h : w.extractLsb' 0 7 = 0x03#7) :
    decode r w = .known (.jal (rdOf w) (jalOffset r.jalImm w)) := by
  simp only [decode, (opcodeOf_toNat_eq (by decide)).2 h]

theorem decode_of_jalr (h : w.extractLsb' 0 7 = 0x04#7) :
    decode r w = .known (.jalr (rdOf w) (rs1Of w) (immI w)) := by
  simp only [decode, (opcodeOf_toNat_eq (by decide)).2 h]

theorem decode_of_branch (h : w.extractLsb' 0 7 = 0x05#7) :
    decode r w = .known (.branch (rs1Of w) (rdOf w) (immB w)) := by
  simp only [decode, (opcodeOf_toNat_eq (by decide)).2 h]

theorem decode_of_load (h : w.extractLsb' 0 7 = 0x0E#7) :
    decode r w = .known (.load (rdOf w) (rs1Of w) (immI w)) := by
  simp only [decode, (opcodeOf_toNat_eq (by decide)).2 h]

theorem decode_of_store (h : w.extractLsb' 0 7 = 0x10#7) :
    decode r w = .known (.store (rs1Of w) (rdOf w) (storeOffset r.storeImm w)) := by
  simp only [decode, (opcodeOf_toNat_eq (by decide)).2 h]

theorem decode_of_opImm (h : w.extractLsb' 0 7 = 0x13#7) :
    decode r w = .known (.opImm (rdOf w) (rs1Of w) (immI w)) := by
  simp only [decode, (opcodeOf_toNat_eq (by decide)).2 h]

theorem decode_of_system (h : w.extractLsb' 0 7 = 0x27#7) : decode r w = .known .system := by
  simp only [decode, (opcodeOf_toNat_eq (by decide)).2 h]

/-- A word decodes to an instruction only from the opcode of that instruction's row. -/
theorem opcode_of_decode {i : Instr} (h : decode r w = .known i) : w.extractLsb' 0 7 = rowOpcode i := by
  rcases decode_cases r w with ⟨hop, hd⟩ | ⟨hop, hd⟩ | ⟨hop, hd⟩ | ⟨hop, hd⟩ | ⟨hop, hd⟩ | ⟨hop, hd⟩ |
    ⟨hop, hd⟩ | ⟨hop, hd⟩ | ⟨hop, hd⟩ | ⟨hop, hd⟩ <;> cases hd.symm.trans h
  all_goals exact hop

theorem exists_decode_of_mem (h : w.extractLsb' 0 7 ∈ definedOpcodes) : ∃ i, decode r w = .known i := by
  rcases decode_cases r w with ⟨-, hd⟩ | ⟨-, hd⟩ | ⟨-, hd⟩ | ⟨-, hd⟩ | ⟨-, hd⟩ | ⟨-, hd⟩ | ⟨-, hd⟩ | ⟨-, hd⟩ |
    ⟨-, hd⟩ | ⟨hop, -⟩
  on_goal 10 => exact absurd h hop
  all_goals exact ⟨_, hd⟩

/-- A word decodes to an unknown opcode exactly when its opcode is none of the nine (R73, R75). -/
theorem decode_eq_unknown_iff : w.extractLsb' 0 7 ∉ definedOpcodes ↔ decode r w = .unknown (w.extractLsb' 0 7) := by
  rcases decode_cases r w with ⟨hop, hd⟩ | ⟨hop, hd⟩ | ⟨hop, hd⟩ | ⟨hop, hd⟩ | ⟨hop, hd⟩ | ⟨hop, hd⟩ |
    ⟨hop, hd⟩ | ⟨hop, hd⟩ | ⟨hop, hd⟩ | ⟨hop, hd⟩
  on_goal 10 => exact iff_of_true hop hd
  all_goals exact iff_of_false (by rw [hop]; decide) (by rw [hd]; exact nofun)

end

/-- Settles O13: each row's opcode decodes to its instruction, and no other opcode does. -/
theorem opcodeFieldSelectsInstruction : Obligations.OpcodeFieldSelectsInstruction := fun _ _ =>
  ⟨⟨fun h => ⟨_, _, decode_of_lui h⟩, fun ⟨_, _, h⟩ => opcode_of_decode h⟩,
    ⟨fun h => ⟨_, _, decode_of_auipc h⟩, fun ⟨_, _, h⟩ => opcode_of_decode h⟩,
    ⟨fun h => ⟨_, _, decode_of_jal h⟩, fun ⟨_, _, h⟩ => opcode_of_decode h⟩,
    ⟨fun h => ⟨_, _, _, decode_of_jalr h⟩, fun ⟨_, _, _, h⟩ => opcode_of_decode h⟩,
    ⟨fun h => ⟨_, _, _, decode_of_branch h⟩, fun ⟨_, _, _, h⟩ => opcode_of_decode h⟩,
    ⟨fun h => ⟨_, _, _, decode_of_load h⟩, fun ⟨_, _, _, h⟩ => opcode_of_decode h⟩,
    ⟨fun h => ⟨_, _, _, decode_of_store h⟩, fun ⟨_, _, _, h⟩ => opcode_of_decode h⟩,
    ⟨fun h => ⟨_, _, _, decode_of_opImm h⟩, fun ⟨_, _, _, h⟩ => opcode_of_decode h⟩,
    ⟨decode_of_system, opcode_of_decode⟩, decode_eq_unknown_iff⟩

/-- Settles O12, by evaluating the decoder on each of the ten words. -/
theorem specWordsDecode : Obligations.SpecWordsDecode := by
  refine ⟨?_, ?_, ?_, ?_, ?_, ?_, ?_, ?_, ?_, ?_⟩ <;> decide

/-! ## Immediates as numbers (R68 to R72) -/

theorem immU_toNat (w : Word) : (immU w).toNat = 4096 * (w.extractLsb' 12 20).toNat := by
  rw [immU, append_toNat, Nat.mul_comm]
  rfl

/-- A sign-extended field shifted left by one is twice the field, if the word has room for it. -/
theorem toInt_signExtend_shiftLeft_one {n : Nat} (hn : n < 32) (x : BitVec n) :
    (x.signExtend 32 <<< 1).toInt = 2 * x.toInt := by
  have hpow : (2 : Int) ^ n ≤ 2 ^ 31 := pow_le_pow_right₀ (by decide) (by omega)
  have hlo := x.le_two_mul_toInt
  have hhi := x.two_mul_toInt_lt
  rw [BitVec.shiftLeft_eq_mul_twoPow, BitVec.toInt_mul, BitVec.toInt_signExtend_of_le hn.le,
    show (BitVec.twoPow 32 1).toInt = 2 by decide, Int.mul_comm]
  exact Int.bmod_eq_of_le_mul_two (by omega) (by omega)

/-- The field of `n` bits from bit `k` on, read signed, is the word divided by `2 ^ k`, if that has a value of `n` bits. -/
theorem toInt_extractLsb'_of_fits {w : Word} {k n : Nat} (hkn : k + n ≤ 32) (hlo : -2 ^ n ≤ 2 * (w.toInt / 2 ^ k))
    (hhi : 2 * (w.toInt / 2 ^ k) < 2 ^ n) : (w.extractLsb' k n).toInt = w.toInt / 2 ^ k := by
  obtain ⟨c, hc⟩ : ∃ c : Int, (w.toNat : Int) = w.toInt + 2 ^ 32 * c := by
    rw [BitVec.toInt_eq_toNat_cond]
    split
    · exact ⟨0, by omega⟩
    · exact ⟨1, by omega⟩
  have hpow : (2 : Int) ^ 32 = 2 ^ k * (2 ^ (32 - k - n) * 2 ^ n) := by
    rw [← pow_add, ← pow_add]; congr 1; omega
  have hdiv : ((w.toNat / 2 ^ k : Nat) : Int) = w.toInt / 2 ^ k + c * 2 ^ (32 - k - n) * (2 ^ n : Nat) := by
    push_cast
    rw [hc, hpow, mul_assoc, Int.add_mul_ediv_left _ _ (by positivity)]
    ring
  rw [BitVec.toInt_extractLsb', Nat.shiftRight_eq_div_pow, hdiv, Int.add_mul_bmod_self_right]
  exact Int.bmod_eq_of_le_mul_two (by push_cast; omega) (by push_cast; omega)

/-! ### The values of the fields -/

/-- The reference JAL_IMM is imm_j (R69). -/
theorem jalOffset_reference (w : Word) : jalOffset ImmReadings.reference.jalImm w = immJ w := rfl

/-- The reference STORE_IMM is imm_s, which is computed as imm_i is (R70, R72). -/
theorem storeOffset_reference (w : Word) : storeOffset ImmReadings.reference.storeImm w = immI w := rfl

theorem immI_toInt (w : Word) : (immI w).toInt = (w.extractLsb' 20 12).toInt :=
  BitVec.toInt_signExtend_of_le (by decide)

theorem immB_toInt (w : Word) : (immB w).toInt = 2 * (w.extractLsb' 20 12).toInt :=
  toInt_signExtend_shiftLeft_one (by decide) _

theorem immJ_toInt (w : Word) : (immJ w).toInt = 2 * (w.extractLsb' 12 20).toInt :=
  toInt_signExtend_shiftLeft_one (by decide) _

/-! ### The ranges, as well-formedness -/

theorem upperImmOk_immU (w : Word) : upperImmOk (immU w) := by
  rw [upperImmOk, immU_toNat]
  exact Nat.mul_mod_right _ _

theorem imm12Ok_signExtend (field : BitVec 12) : imm12Ok (field.signExtend 32) := by
  rw [imm12Ok, BitVec.toInt_signExtend_of_le (by decide)]
  have hlo := field.le_toInt
  have hhi := field.toInt_lt
  omega

theorem imm12Ok_immI (w : Word) : imm12Ok (immI w) := imm12Ok_signExtend _

theorem branchOffOk_immB (w : Word) : branchOffOk (immB w) := by
  rw [branchOffOk, immB_toInt]
  have hlo := (w.extractLsb' 20 12).le_toInt
  have hhi := (w.extractLsb' 20 12).toInt_lt
  omega

theorem jalOffOk_immJ (w : Word) : jalOffOk (immJ w) := by
  rw [jalOffOk, immJ_toInt]
  have hlo := (w.extractLsb' 12 20).le_toInt
  have hhi := (w.extractLsb' 12 20).toInt_lt
  omega

/-! ### The field of an operand, and the operand of a field -/

/-- The encoder's field of a 12-bit operand has the operand's value. -/
theorem toInt_extractLsb'_of_imm12Ok {imm : Word} (h : imm12Ok imm) : (imm.extractLsb' 0 12).toInt = imm.toInt := by
  obtain ⟨hlo, hhi⟩ := h
  simpa using toInt_extractLsb'_of_fits (w := imm) (k := 0) (n := 12) (by decide) (by omega) (by omega)

/-- The encoder's field of a branch offset is half of it. -/
theorem toInt_extractLsb'_of_branchOffOk {off : Word} (h : branchOffOk off) :
    (off.extractLsb' 1 12).toInt = off.toInt / 2 := by
  obtain ⟨-, hlo, hhi⟩ := h
  exact toInt_extractLsb'_of_fits (by decide) (by omega) (by omega)

/-- The encoder's field of a jump offset is half of it. -/
theorem toInt_extractLsb'_of_jalOffOk {off : Word} (h : jalOffOk off) :
    (off.extractLsb' 1 20).toInt = off.toInt / 2 := by
  obtain ⟨-, hlo, hhi⟩ := h
  exact toInt_extractLsb'_of_fits (by decide) (by omega) (by omega)

theorem extractLsb'_immU (w : Word) : (immU w).extractLsb' 12 20 = w.extractLsb' 12 20 := by
  apply BitVec.eq_of_toNat_eq
  have hlt := (w.extractLsb' 12 20).isLt
  rw [BitVec.extractLsb'_toNat, immU_toNat, Nat.shiftRight_eq_div_pow]
  omega

theorem extractLsb'_immI (w : Word) : (immI w).extractLsb' 0 12 = w.extractLsb' 20 12 :=
  BitVec.eq_of_toInt_eq ((toInt_extractLsb'_of_imm12Ok (imm12Ok_immI w)).trans (immI_toInt w))

theorem extractLsb'_immB (w : Word) : (immB w).extractLsb' 1 12 = w.extractLsb' 20 12 := by
  apply BitVec.eq_of_toInt_eq
  rw [toInt_extractLsb'_of_branchOffOk (branchOffOk_immB w), immB_toInt]
  omega

theorem extractLsb'_immJ (w : Word) : (immJ w).extractLsb' 1 20 = w.extractLsb' 12 20 := by
  apply BitVec.eq_of_toInt_eq
  rw [toInt_extractLsb'_of_jalOffOk (jalOffOk_immJ w), immJ_toInt]
  omega

section
variable {w imm off : Word}

/-- A word that holds the field of an upper immediate has that immediate. -/
theorem immU_eq (hf : w.extractLsb' 12 20 = imm.extractLsb' 12 20) (h : upperImmOk imm) : immU w = imm := by
  apply BitVec.eq_of_toNat_eq
  have hlt := imm.isLt
  rw [immU_toNat, hf, BitVec.extractLsb'_toNat, Nat.shiftRight_eq_div_pow]
  omega

/-- A word that holds the field of a 12-bit operand has that operand. -/
theorem immI_eq (hf : w.extractLsb' 20 12 = imm.extractLsb' 0 12) (h : imm12Ok imm) : immI w = imm :=
  BitVec.eq_of_toInt_eq (by rw [immI_toInt, hf, toInt_extractLsb'_of_imm12Ok h])

/-- A word that holds half of a branch offset has that offset. -/
theorem immB_eq (hf : w.extractLsb' 20 12 = off.extractLsb' 1 12) (h : branchOffOk off) : immB w = off := by
  apply BitVec.eq_of_toInt_eq
  rw [immB_toInt, hf, toInt_extractLsb'_of_branchOffOk h]
  omega

/-- A word that holds half of a jump offset has that offset. -/
theorem immJ_eq (hf : w.extractLsb' 12 20 = off.extractLsb' 1 20) (h : jalOffOk off) : immJ w = off := by
  apply BitVec.eq_of_toInt_eq
  rw [immJ_toInt, hf, toInt_extractLsb'_of_jalOffOk h]
  omega

end

/-- Settles O15: each immediate is its field by construction, and a multiple of 4096 is the imm_u of itself. -/
theorem immediateValuesAndRanges : Obligations.ImmediateValuesAndRanges := by
  refine ⟨fun w => ?_, fun v hv => ⟨v, immU_eq rfl hv⟩⟩
  obtain ⟨hlo, hhi⟩ := imm12Ok_immI w
  obtain ⟨-, hloB, hhiB⟩ := branchOffOk_immB w
  obtain ⟨-, hloJ, hhiJ⟩ := jalOffOk_immJ w
  exact ⟨immU_toNat w, immJ_toInt w, immI_toInt w, immB_toInt w, immI_toInt w, hloJ, hhiJ, hlo, hhi, hloB, hhiB, hlo, hhi⟩

/-! ## The two directions of the round trip (R67, R77) -/

/-- Settles O16: the opcode of the encoded word selects the constructor, and each field gives back its operand. -/
theorem decodeOfEncodeIsIdentity : Obligations.DecodeOfEncodeIsIdentity := by
  intro i hwf
  cases i with
  | lui rd imm =>
    rw [decode_of_lui (Laws.EncodedOpcode.lui rd imm), encode, packUJ_rd,
      immU_eq (packUJ_field _ _ _) (of_decide_eq_true hwf)]
  | auipc rd imm =>
    rw [decode_of_auipc (Laws.EncodedOpcode.auipc rd imm), encode, packUJ_rd,
      immU_eq (packUJ_field _ _ _) (of_decide_eq_true hwf)]
  | jal rd off =>
    rw [decode_of_jal (Laws.EncodedOpcode.jal rd off), encode, packUJ_rd, jalOffset_reference,
      immJ_eq (packUJ_field _ _ _) (of_decide_eq_true hwf)]
  | jalr rd rs1 imm =>
    rw [decode_of_jalr (Laws.EncodedOpcode.jalr rd rs1 imm), encode, packIBS_rd, packIBS_rs1,
      immI_eq (packIBS_field _ _ _ _) (of_decide_eq_true hwf)]
  | branch rs1 rs2 off =>
    rw [decode_of_branch (Laws.EncodedOpcode.branch rs1 rs2 off), encode, packIBS_rd, packIBS_rs1,
      immB_eq (packIBS_field _ _ _ _) (of_decide_eq_true hwf)]
  | load rd rs1 imm =>
    rw [decode_of_load (Laws.EncodedOpcode.load rd rs1 imm), encode, packIBS_rd, packIBS_rs1,
      immI_eq (packIBS_field _ _ _ _) (of_decide_eq_true hwf)]
  | store rs1 rs2 imm =>
    rw [decode_of_store (Laws.EncodedOpcode.store rs1 rs2 imm), encode, packIBS_rd, packIBS_rs1,
      storeOffset_reference, immI_eq (packIBS_field _ _ _ _) (of_decide_eq_true hwf)]
  | opImm rd rs1 imm =>
    rw [decode_of_opImm (Laws.EncodedOpcode.opImm rd rs1 imm), encode, packIBS_rd, packIBS_rs1,
      immI_eq (packIBS_field _ _ _ _) (of_decide_eq_true hwf)]
  | system => exact decode_of_system Laws.EncodedOpcode.system

/-- Formats U and J name every bit. -/
theorem packUJ_fields (w : Word) : packUJ (w.extractLsb' 12 20) (rdOf w) (w.extractLsb' 0 7) = w := by
  rw [packUJ, rdOf, BitVec.extractLsb'_append_extractLsb'_eq_extractLsb' (show 12 = 7 + 5 from rfl),
    BitVec.extractLsb'_append_extractLsb'_eq_extractLsb' (show 7 = 0 + 7 from rfl)]
  exact BitVec.extractLsb'_eq_self

/-- Formats I, B and S name every bit but 19:17. -/
theorem packIBS_fields {w : Word} (h : w.extractLsb' 17 3 = 0#3) :
    packIBS (w.extractLsb' 20 12) (rs1Of w) (rdOf w) (w.extractLsb' 0 7) = w := by
  rw [packIBS, rs1Of, rdOf, ← h, BitVec.extractLsb'_append_extractLsb'_eq_extractLsb' (show 20 = 17 + 3 from rfl),
    BitVec.extractLsb'_append_extractLsb'_eq_extractLsb' (show 17 = 12 + 5 from rfl),
    BitVec.extractLsb'_append_extractLsb'_eq_extractLsb' (show 12 = 7 + 5 from rfl),
    BitVec.extractLsb'_append_extractLsb'_eq_extractLsb' (show 7 = 0 + 7 from rfl)]
  exact BitVec.extractLsb'_eq_self

/-- A mask that covers a field keeps it. -/
theorem extractLsb'_and_of_covers {w mask : Word} {k n : Nat} (h : mask.extractLsb' k n = BitVec.allOnes n) :
    (w &&& mask).extractLsb' k n = w.extractLsb' k n := by
  rw [BitVec.extractLsb'_and, h, BitVec.and_allOnes]

/-- The word with bits 19:17 cleared is packed from the fields of the word (R74). -/
theorem packIBS_fields_and (w : Word) :
    packIBS (w.extractLsb' 20 12) (rs1Of w) (rdOf w) (w.extractLsb' 0 7) = w &&& 0xFFF1FFFF#32 := by
  have hgap : (w &&& 0xFFF1FFFF#32).extractLsb' 17 3 = 0#3 := by
    rw [BitVec.extractLsb'_and]
    exact BitVec.and_zero
  have hfields := packIBS_fields hgap
  simp only [rs1Of, rdOf] at hfields ⊢
  rwa [extractLsb'_and_of_covers (by decide), extractLsb'_and_of_covers (by decide),
    extractLsb'_and_of_covers (by decide), extractLsb'_and_of_covers (by decide)] at hfields

theorem and_opcodeMask (w : Word) : w &&& 0x0000007F#32 = (w.extractLsb' 0 7).setWidth 32 := by
  apply BitVec.eq_of_toNat_eq
  rw [BitVec.toNat_and, BitVec.toNat_setWidth, BitVec.extractLsb'_toNat, Nat.shiftRight_zero,
    show (0x0000007F#32).toNat = 2 ^ 7 - 1 from rfl, Nat.and_two_pow_sub_one_eq_mod]
  omega

section
variable {w : Word}

theorem clearIgnored_of_allNamed (h : w.extractLsb' 0 7 ∈ [0x01#7, 0x02#7, 0x03#7]) : clearIgnored w = w := by
  simp only [List.mem_cons, List.not_mem_nil, or_false] at h
  rcases h with h | h | h <;> simp only [clearIgnored, (opcodeOf_toNat_eq (by decide)).2 h]

theorem clearIgnored_of_gap (h : w.extractLsb' 0 7 ∈ [0x04#7, 0x05#7, 0x0E#7, 0x10#7, 0x13#7]) :
    clearIgnored w = packIBS (w.extractLsb' 20 12) (rs1Of w) (rdOf w) (w.extractLsb' 0 7) := by
  rw [packIBS_fields_and]
  simp only [List.mem_cons, List.not_mem_nil, or_false] at h
  rcases h with h | h | h | h | h <;> simp only [clearIgnored, (opcodeOf_toNat_eq (by decide)).2 h]

theorem clearIgnored_of_system (h : w.extractLsb' 0 7 = 0x27#7) : clearIgnored w = 0x00000027#32 := by
  simp only [clearIgnored, (opcodeOf_toNat_eq (by decide)).2 h, and_opcodeMask, h]
  rfl

end

/-- Settles O17: each operand's field is the word's own, so the encoder packs the fields of the word. -/
theorem encodeOfDecodeIsCanonicalWord : Obligations.EncodeOfDecodeIsCanonicalWord := by
  intro w i h
  rcases decode_cases .reference w with ⟨hop, hd⟩ | ⟨hop, hd⟩ | ⟨hop, hd⟩ | ⟨hop, hd⟩ | ⟨hop, hd⟩ | ⟨hop, hd⟩ |
    ⟨hop, hd⟩ | ⟨hop, hd⟩ | ⟨hop, hd⟩ | ⟨hop, hd⟩ <;> cases hd.symm.trans h
  · -- LUI
    refine ⟨decide_eq_true (upperImmOk_immU w), ?_⟩
    rw [clearIgnored_of_allNamed (by simp [hop]), encode, extractLsb'_immU, ← hop, packUJ_fields]
  · -- AUIPC
    refine ⟨decide_eq_true (upperImmOk_immU w), ?_⟩
    rw [clearIgnored_of_allNamed (by simp [hop]), encode, extractLsb'_immU, ← hop, packUJ_fields]
  · -- JAL
    refine ⟨decide_eq_true (jalOffOk_immJ w), ?_⟩
    rw [clearIgnored_of_allNamed (by simp [hop]), encode, jalOffset_reference, extractLsb'_immJ, ← hop, packUJ_fields]
  · -- JALR
    refine ⟨decide_eq_true (imm12Ok_immI w), ?_⟩
    rw [clearIgnored_of_gap (by simp [hop]), encode, extractLsb'_immI, hop]
  · -- BRANCH
    refine ⟨decide_eq_true (branchOffOk_immB w), ?_⟩
    rw [clearIgnored_of_gap (by simp [hop]), encode, extractLsb'_immB, hop]
  · -- LOAD
    refine ⟨decide_eq_true (imm12Ok_immI w), ?_⟩
    rw [clearIgnored_of_gap (by simp [hop]), encode, extractLsb'_immI, hop]
  · -- STORE
    refine ⟨decide_eq_true (imm12Ok_immI w), ?_⟩
    rw [clearIgnored_of_gap (by simp [hop]), encode, storeOffset_reference, extractLsb'_immI, hop]
  · -- OP_IMM
    refine ⟨decide_eq_true (imm12Ok_immI w), ?_⟩
    rw [clearIgnored_of_gap (by simp [hop]), encode, extractLsb'_immI, hop]
  · -- SYSTEM
    exact ⟨rfl, (clearIgnored_of_system hop).symm⟩

/-! ## The ignored bits (R74, D20) -/

/-- A word and the word with its ignored bits cleared decode alike: that one is what the encoder writes. -/
theorem decode_clearIgnored {w : Word} {i : Instr} (h : decode .reference w = .known i) :
    decode .reference (clearIgnored w) = .known i := by
  obtain ⟨hwf, henc⟩ := encodeOfDecodeIsCanonicalWord w i h
  rw [← henc]
  exact decodeOfEncodeIsIdentity i hwf

/-- Settles O14: decoding is of the word with its ignored bits cleared, and where none are ignored the encoder gives the
word back. -/
theorem ignoredBitsDoNotMatter : Obligations.IgnoredBitsDoNotMatter := by
  refine ⟨fun w w' hgap hlo hhi => ?_, fun r w w' h h' => ?_, fun w w' hall h => ?_⟩
  · have hop : w.extractLsb' 0 7 = w'.extractLsb' 0 7 := extractLsb'_congr hlo (by decide) (by decide)
    have hclear : clearIgnored w = clearIgnored w' := by
      rw [clearIgnored_of_gap hgap, clearIgnored_of_gap (hop ▸ hgap), hop, hhi, rs1Of, rdOf, rs1Of, rdOf,
        extractLsb'_congr (b := 7) (m := 5) hlo (by decide) (by decide),
        extractLsb'_congr (b := 12) (m := 5) hlo (by decide) (by decide)]
    have hdef : w.extractLsb' 0 7 ∈ definedOpcodes :=
      (by decide : [0x04#7, 0x05#7, 0x0E#7, 0x10#7, 0x13#7] ⊆ definedOpcodes) hgap
    obtain ⟨i, hi⟩ := exists_decode_of_mem (r := .reference) hdef
    obtain ⟨i', hi'⟩ := exists_decode_of_mem (r := .reference) (hop ▸ hdef)
    rw [hi, hi', ← decode_clearIgnored hi, ← decode_clearIgnored hi', hclear]
  · rw [decode_of_system h, decode_of_system h']
  · obtain ⟨i, hi⟩ := exists_decode_of_mem (r := .reference)
      ((by decide : [0x01#7, 0x02#7, 0x03#7] ⊆ definedOpcodes) hall)
    have hi' := h ▸ hi
    have hop : w'.extractLsb' 0 7 = w.extractLsb' 0 7 := (opcode_of_decode hi').trans (opcode_of_decode hi).symm
    calc w = clearIgnored w := (clearIgnored_of_allNamed hall).symm
      _ = encode i := (encodeOfDecodeIsCanonicalWord w i hi).2.symm
      _ = clearIgnored w' := (encodeOfDecodeIsCanonicalWord w' i hi').2
      _ = w' := clearIgnored_of_allNamed (hop ▸ hall)

end Sys2Proof
end

section
/-! SUPPORT. The effect of an instruction that writes one register and does nothing else but set next-PC (R29, R79, R85,
R86, R92), for one instruction and for a sequence; the two parts of `li` (R78); and the statements about the
pseudo-instructions that follow. -/

namespace Sys2Proof.Machine

/-! ## One register written -/

/-- `t` comes after `s` by a write of `v` to `rd` that selected `next` as next-PC: nothing else changed. -/
structure SetsReg (s t : State) (rd : RegIdx) (v next : Word) : Prop where
  holds : RegHolds t rd v
  others : RegsUnchangedBut s t rd
  ends : EndsAt s t next
  ram : RamUnchanged s t
  trace : t.trace = s.trace

namespace SetsReg

theorem of_writeReg {s v : State} (hv : Undisturbed s v) (htrace : v.trace = s.trace) (rd : RegIdx) (x : Word) :
    SetsReg s (v.writeReg rd x).endExecute rd x v.npc where
  holds := by simp [RegHolds]
  others r hr := by
    rw [State.readReg_endExecute, State.readReg_writeReg_of_ne v x hr, State.readReg_congr hv.regs]
  ends := ⟨by simp, by simp, by simp [hv.halted], by simp [hv.halted], by simp, by simp [hv.ir], by simp [hv.cfg]⟩
  ram := ⟨fun a => by simp [hv.ram], by simp [hv.ram]⟩
  trace := by simp [htrace]

/-- A write of register 0 is discarded (R20). -/
theorem regsUnchanged {s t : State} {v next : Word} (h : SetsReg s t 0#5 v next) : RegsUnchanged s t := by
  intro r
  by_cases hr : r = 0#5
  · rw [hr, State.readReg_zero, State.readReg_zero]
  · exact h.others r hr

/-- Of two writes to one register the second stays. -/
theorem trans {s t u : State} {rd : RegIdx} {v w next next' : Word} (h : SetsReg s t rd v next)
    (h' : SetsReg t u rd w next') : SetsReg s u rd w next' where
  holds := h'.holds
  others r hr := (h'.others r hr).trans (h.others r hr)
  ends :=
    { pc := h'.ends.pc
      npc := h'.ends.npc
      halted := h'.ends.halted.trans h.ends.halted
      phase := h'.ends.phase.trans (by rw [h.ends.halted])
      slot0 := h'.ends.slot0
      ir := h'.ends.ir.trans h.ends.ir
      cfg := h'.ends.cfg.trans h.ends.cfg }
  ram := ⟨fun a => (h'.ram.bytes a).trans (h.ram.bytes a), h'.ram.data.trans h.ram.data⟩
  trace := h'.trace.trans h.trace

/-- The value written matters only if `rd` is not register 0. -/
theorem congr_value {s t : State} {rd : RegIdx} {v w next : Word} (h : SetsReg s t rd v next)
    (hvw : rd ≠ 0#5 → v = w) : SetsReg s t rd w next :=
  { h with
    holds := by
      have hold := h.holds
      by_cases h0 : rd = 0#5
      · rwa [RegHolds, if_pos h0] at hold ⊢
      · rwa [← hvw h0] }

end SetsReg

theorem exec_lui_setsReg (rd : RegIdx) (imm : Word) (s : State) :
    ∃ t, exec (.lui rd imm) s = .next t ∧ SetsReg s t rd imm (s.pc + 4#32) :=
  ⟨_, rfl, .of_writeReg (.beginExecute s) rfl rd imm⟩

theorem exec_opImm_setsReg (rd rs1 : RegIdx) (imm : Word) (s : State) :
    ∃ t, exec (.opImm rd rs1 imm) s = .next t ∧ SetsReg s t rd (s.readReg rs1 + imm) (s.pc + 4#32) :=
  ⟨_, rfl, .of_writeReg (.beginExecute s) rfl rd _⟩

theorem jumpAndLink_setsReg (s : State) (rd : RegIdx) (target : Word) :
    SetsReg s (s.jumpAndLink rd target) rd (s.pc + 4#32) target :=
  .of_writeReg (.setNpc s target) rfl rd _

theorem exec_jal_setsReg (rd : RegIdx) (off : Word) (s : State) :
    ∃ t, exec (.jal rd off) s = .next t ∧ SetsReg s t rd (s.pc + 4#32) (s.pc + off) :=
  ⟨_, rfl, jumpAndLink_setsReg s rd _⟩

theorem exec_jalr_setsReg (rd rs1 : RegIdx) (imm : Word) (s : State) :
    ∃ t, exec (.jalr rd rs1 imm) s = .next t ∧
      SetsReg s t rd (s.pc + 4#32) ((s.readReg rs1 + imm) &&& ~~~1#32) :=
  ⟨_, rfl, jumpAndLink_setsReg s rd _⟩

/-! ## Sequences of instructions -/

theorem execAll_cons_of_next {i : Instr} {s t : State} (h : exec i s = .next t) (is : List Instr) :
    execAll (i :: is) s = execAll is t := by
  simp only [execAll, h]

/-- Settles O56: each is one instruction that writes one register; the jumps write register 0. -/
theorem otherPseudoInstructions : Obligations.OtherPseudoInstructions := by
  refine fun s => ⟨?_, fun rd rs => ?_, fun off => ?_, ?_⟩
  · obtain ⟨t, hx, h⟩ := exec_opImm_setsReg 0#5 0#5 0#32 s
    exact ⟨t, execAll_cons_of_next hx [], h.regsUnchanged, h.ends, h.ram, h.trace⟩
  · obtain ⟨t, hx, h⟩ := exec_opImm_setsReg rd rs 0#32 s
    rw [BitVec.add_zero] at h
    exact ⟨t, execAll_cons_of_next hx [], h.holds, h.others, h.ends, h.ram, h.trace⟩
  · obtain ⟨t, hx, h⟩ := exec_jal_setsReg 0#5 off s
    exact ⟨t, execAll_cons_of_next hx [], h.regsUnchanged, h.ends, h.ram, h.trace⟩
  · obtain ⟨t, hx, h⟩ := exec_jalr_setsReg 0#5 1#5 0#32 s
    rw [BitVec.add_zero] at h
    exact ⟨t, execAll_cons_of_next hx [], h.regsUnchanged, h.ends, h.ram, h.trace⟩

/-! ## The two parts of li (R78) -/

theorem upperImmOk_liUpper (v : Word) : upperImmOk (liUpper v) := upperImmOk_immU (v + 0x800#32)

theorem imm12Ok_liLower (v : Word) : imm12Ok (liLower v) := imm12Ok_signExtend _

/-- The `0x800` added to the upper part makes up for the sign of the lower. -/
theorem liUpper_add_liLower (v : Word) : liUpper v + liLower v = v := by
  have hupper : (liUpper v).toNat = 4096 * ((v + 0x800#32).extractLsb' 12 20).toNat := immU_toNat _
  have hlower : (liLower v).toInt = (v.extractLsb' 0 12).toInt := BitVec.toInt_signExtend_of_le (by decide)
  have hlt := v.isLt
  rw [BitVec.extractLsb'_toNat, Nat.shiftRight_eq_div_pow, BitVec.toNat_add] at hupper
  rw [BitVec.toInt_eq_toNat_cond, BitVec.toInt_eq_toNat_cond, BitVec.extractLsb'_toNat, Nat.shiftRight_zero] at hlower
  apply BitVec.eq_of_toNat_eq
  rw [BitVec.toNat_add, hupper]
  simp only [BitVec.toNat_ofNat]
  omega

/-- The three expansions of `li`: an addition to register 0, the upper part alone, which is then the value, or both. -/
theorem expand_li_cases (rd : RegIdx) (v : Word) :
    (imm12Ok v ∧ (Pseudo.li rd v).expand = [.opImm rd 0#5 v]) ∨
    (liUpper v = v ∧ (Pseudo.li rd v).expand = [.lui rd (liUpper v)]) ∨
    (Pseudo.li rd v).expand = [.lui rd (liUpper v), .opImm rd rd (liLower v)] := by
  by_cases hsmall : imm12Ok v
  · exact .inl ⟨hsmall, if_pos hsmall⟩
  by_cases hround : v.extractLsb' 0 12 = 0#12
  · refine .inr (.inl ⟨?_, (if_neg hsmall).trans (if_pos hround)⟩)
    have hlower : liLower v = 0#32 := by rw [liLower, hround]; rfl
    simpa [hlower] using liUpper_add_liLower v
  · exact .inr (.inr ((if_neg hsmall).trans (if_neg hround)))

theorem wellFormed_of_mem_expand_li {rd : RegIdx} {v : Word} {i : Instr} (hi : i ∈ (Pseudo.li rd v).expand) :
    i.wellFormed = true := by
  have hupper : (Instr.lui rd (liUpper v)).wellFormed = true := decide_eq_true (upperImmOk_liUpper v)
  have hlower : (Instr.opImm rd rd (liLower v)).wellFormed = true := decide_eq_true (imm12Ok_liLower v)
  rcases expand_li_cases rd v with ⟨hsmall, e⟩ | ⟨-, e⟩ | e <;> rw [e] at hi
  · rw [List.mem_singleton.1 hi]
    exact decide_eq_true hsmall
  · rwa [List.mem_singleton.1 hi]
  · rcases List.mem_pair.1 hi with rfl | rfl
    · exact hupper
    · exact hlower

/-- LUI and the addition of the lower part build the value: the second reads what the first left in `rd`. -/
theorem execAll_lui_opImm_setsReg (rd : RegIdx) (v : Word) (s : State) :
    ∃ t, execAll [.lui rd (liUpper v), .opImm rd rd (liLower v)] s = .next t ∧ SetsReg s t rd v (s.pc + 8#32) := by
  obtain ⟨t, hx, h⟩ := exec_lui_setsReg rd (liUpper v) s
  obtain ⟨u, hx', h'⟩ := exec_opImm_setsReg rd rd (liLower v) t
  have hsum : rd ≠ 0#5 → t.readReg rd + liLower v = v := fun h0 => by
    rw [h.holds, if_neg h0, liUpper_add_liLower]
  have hpc : t.pc + 4#32 = s.pc + 8#32 := by
    rw [h.ends.pc, BitVec.add_assoc]
    rfl
  refine ⟨u, (execAll_cons_of_next hx _).trans (execAll_cons_of_next hx' []), ?_⟩
  rw [hpc] at h'
  exact (h.trans h').congr_value hsum

theorem execAll_li_setsReg (rd : RegIdx) (v : Word) (s : State) :
    ∃ t, execAll (Pseudo.li rd v).expand s = .next t ∧
      SetsReg s t rd v (s.pc + BitVec.ofNat 32 (4 * (Pseudo.li rd v).expand.length)) := by
  rcases expand_li_cases rd v with ⟨-, e⟩ | ⟨hround, e⟩ | e <;> rw [e]
  · obtain ⟨t, hx, h⟩ := exec_opImm_setsReg rd 0#5 v s
    rw [State.readReg_zero, BitVec.zero_add] at h
    exact ⟨t, execAll_cons_of_next hx [], h⟩
  · rw [hround]
    obtain ⟨t, hx, h⟩ := exec_lui_setsReg rd v s
    exact ⟨t, execAll_cons_of_next hx [], h⟩
  · exact execAll_lui_opImm_setsReg rd v s

/-- Settles O55: each of the three expansions is well formed and sets `rd`. -/
theorem liBuildsConstant : Obligations.LiBuildsConstant := by
  intro rd v s
  obtain ⟨t, hx, h⟩ := execAll_li_setsReg rd v s
  exact ⟨fun i hi => wellFormed_of_mem_expand_li hi, t, hx, h.holds, h.others, h.ram, h.trace, h.ends.halted, h.ends.pc⟩

end Sys2Proof.Machine
end

section
/-! SUPPORT. LUI and AUIPC: the upper immediate in a register, alone or added to the pc of the instruction (R79, R80). -/

namespace Sys2Proof.Machine

/-- The parts of `SetsReg`, as the statements about single instructions list them. -/
theorem SetsReg.parts {s t : State} {rd : RegIdx} {v next : Word} (h : SetsReg s t rd v next) :
    RegHolds t rd v ∧ RegsUnchangedBut s t rd ∧ EndsAt s t next ∧ RamUnchanged s t ∧ t.trace = s.trace :=
  ⟨h.holds, h.others, h.ends, h.ram, h.trace⟩

theorem exec_auipc_setsReg (rd : RegIdx) (imm : Word) (s : State) :
    ∃ t, exec (.auipc rd imm) s = .next t ∧ SetsReg s t rd (s.pc + imm) (s.pc + 4#32) :=
  ⟨_, rfl, .of_writeReg (.beginExecute s) rfl rd _⟩

/-- Settles O1: the row of LUI in the opcode map, and its one register write. -/
theorem luiLoadsUpperImmediate : Obligations.LuiLoadsUpperImmediate := by
  refine ⟨fun _ _ hop => decode_of_lui hop, fun rd imm s => ?_⟩
  obtain ⟨t, hx, h⟩ := exec_lui_setsReg rd imm s
  exact ⟨t, hx, h.parts⟩

/-- Settles O2: the row of AUIPC in the opcode map, and its one register write, of a sum with the old pc. -/
theorem auipcAddsToCurrentPc : Obligations.AuipcAddsToCurrentPc := by
  refine ⟨fun _ _ hop => decode_of_auipc hop, fun rd imm s => ?_⟩
  obtain ⟨t, hx, h⟩ := exec_auipc_setsReg rd imm s
  exact ⟨t, hx, h.parts⟩

end Sys2Proof.Machine
end

section
/-! SUPPORT. Control transfer: the next-PC that a word selects (R81), the bits of a target (R82), and the effects of
JAL, JALR and BRANCH (R85 to R87). -/

namespace Sys2Proof.Machine

/-! ## The next-PC table (R81) -/

/-- The next-PC that EXECUTE of a decoded word selects in `s`. -/
def nextPc (s : State) : Decoded → Word
  | .known (.jal _ off) => s.pc + off
  | .known (.jalr _ rs1 imm) => (s.readReg rs1 + imm) &&& ~~~1#32
  | .known (.branch rs1 rs2 off) => if s.readReg rs1 = s.readReg rs2 then s.pc + off else s.pc + 4#32
  | .known .system => s.pc
  | .known (.lui _ _) | .known (.auipc _ _) | .known (.load _ _ _) | .known (.store _ _ _) | .known (.opImm _ _ _) |
    .unknown _ => s.pc + 4#32

/-- BRANCH sets npc in both cases, to the default when it is not taken. -/
theorem exec_branch (rs1 rs2 : RegIdx) (off : Word) (s : State) :
    exec (.branch rs1 rs2 off) s =
      .next (s.beginExecute.setNpc (nextPc s (.known (.branch rs1 rs2 off)))).endExecute := by
  rw [nextPc, exec, execBranch]
  split <;> rfl

theorem exec_pc {i : Instr} {s t : State} (h : exec i s = .next t) : t.pc = nextPc s (.known i) := by
  cases i with
  | jal rd off => exact Host.Outcome.next.inj h ▸ (jumpAndLink_setsReg s rd _).ends.pc
  | jalr rd rs1 imm => exact Host.Outcome.next.inj h ▸ (jumpAndLink_setsReg s rd _).ends.pc
  | branch rs1 rs2 off =>
    obtain rfl := Host.Outcome.next.inj ((exec_branch rs1 rs2 off s).symm.trans h)
    rfl
  | load rd rs1 imm =>
    rcases execLoad_cases rd rs1 imm s with ⟨-, -, e⟩ | ⟨-, -, e⟩ | ⟨-, -, e⟩ <;>
      obtain rfl := Host.Outcome.next.inj (e.symm.trans h) <;> simp [nextPc]
  | store rs1 rs2 imm =>
    rcases execStore_cases rs1 rs2 imm s with ⟨-, e⟩ | ⟨-, -, e⟩ | ⟨-, -, e⟩ | ⟨-, e⟩ <;>
      cases e.symm.trans h <;> rfl
  | _ =>
    obtain rfl := Host.Outcome.next.inj h
    simp [nextPc]

/-- EXECUTE ends with pc and npc at the next-PC of the word it decodes (R29). -/
theorem execute_pc {s t : State} (h : execute s = .next t) :
    t.npc = t.pc ∧ t.pc = nextPc s (decode s.cfg.imms s.ir) := by
  cases hd : decode s.cfg.imms s.ir with
  | known i =>
    have hx := (execute_of_known hd).symm.trans h
    obtain ⟨u, rfl, -, -⟩ := exec_ends hx
    exact ⟨rfl, exec_pc hx⟩
  | unknown op =>
    obtain rfl := Host.Outcome.next.inj ((execute_of_unknown hd).symm.trans h)
    exact ⟨rfl, rfl⟩

/-- Settles O41: each opcode decodes to an instruction whose next-PC is its row; an unknown opcode has the default. -/
theorem nextPcTable : Obligations.NextPcTable := by
  intro s t hp hstep
  obtain ⟨hnpc, hpc⟩ := execute_pc ((step_of_execute hp).symm.trans hstep)
  refine ⟨hnpc, hpc.trans ?_⟩
  rcases decode_cases s.cfg.imms s.ir with ⟨hop, hd⟩ | ⟨hop, hd⟩ | ⟨hop, hd⟩ | ⟨hop, hd⟩ | ⟨hop, hd⟩ | ⟨hop, hd⟩ |
    ⟨hop, hd⟩ | ⟨hop, hd⟩ | ⟨hop, hd⟩ | ⟨hop, hd⟩ <;> rw [hd]
  on_goal 10 =>
    have hne : ∀ op ∈ definedOpcodes, s.ir.extractLsb' 0 7 ≠ op := fun op hmem e => hop (e ▸ hmem)
    rw [if_neg (hne _ (by decide)), if_neg (hne _ (by decide)), if_neg (hne _ (by decide)),
      if_neg (hne _ (by decide))]
    rfl
  all_goals
    rw [hop]
    rfl

/-! ## The bits of a target (R82) -/

/-- Adding an even number keeps bit 0. -/
theorem getLsbD_zero_add_shiftLeft_one (x y : Word) : (x + y <<< 1).getLsbD 0 = x.getLsbD 0 := by
  rw [BitVec.getLsbD_add (by decide)]
  simp

/-- The mask of JALR clears bit 0. -/
theorem getLsbD_zero_and_not_one (x : Word) : (x &&& ~~~1#32).getLsbD 0 = false := by
  rw [BitVec.getLsbD_and]
  exact Bool.and_false _

/-- The mask of JALR keeps every bit but bit 0. -/
theorem getLsbD_and_not_one_of_pos (x : Word) {k : Nat} (hk : 1 ≤ k) : (x &&& ~~~1#32).getLsbD k = x.getLsbD k := by
  rw [BitVec.getLsbD_and, BitVec.getLsbD_not, BitVec.getLsbD_one]
  by_cases hlt : k < 32
  · simp [hlt, Nat.ne_of_gt hk]
  · rw [BitVec.getLsbD_of_ge x k (not_lt.1 hlt), Bool.false_and]

/-- Settles O42: the offsets of JAL and BRANCH are shifted left by one, and 4 is even. -/
theorem targetsKeepOrClearBitZero : Obligations.TargetsKeepOrClearBitZero := by
  intro s t himms hp hstep
  obtain ⟨-, hpc⟩ := execute_pc ((step_of_execute hp).symm.trans hstep)
  rw [hpc, himms]
  refine ⟨?_, fun hjalr => ?_⟩
  · rintro (hjal | hbranch)
    · rw [decode_of_jal hjal]
      exact getLsbD_zero_add_shiftLeft_one _ _
    · rw [decode_of_branch hbranch, nextPc]
      split
      · exact getLsbD_zero_add_shiftLeft_one _ _
      · exact getLsbD_zero_add_shiftLeft_one s.pc 2#32
  · rw [decode_of_jalr hjalr]
    exact ⟨getLsbD_zero_and_not_one _, fun k hk => getLsbD_and_not_one_of_pos _ hk⟩

/-! ## The effects of the jumps (R85 to R87) -/

/-- Settles O3: the row of JAL in the opcode map, and its link. -/
theorem jalJumpsAndLinks : Obligations.JalJumpsAndLinks := by
  refine ⟨fun _ hop => decode_of_jal hop, fun rd off s => ?_⟩
  obtain ⟨t, hx, h⟩ := exec_jal_setsReg rd off s
  exact ⟨t, hx, h.parts⟩

/-- Settles O4: the row of JALR in the opcode map, and its link; the target is computed before the link is written. -/
theorem jalrJumpsToRegisterAndLinks : Obligations.JalrJumpsToRegisterAndLinks := by
  refine ⟨fun _ _ hop => decode_of_jalr hop, fun rd rs1 imm s => ?_⟩
  obtain ⟨t, hx, h⟩ := exec_jalr_setsReg rd rs1 imm s
  exact ⟨t, hx, h.parts⟩

/-- An EXECUTE that only selects a next-PC writes no register, as one that writes register 0 does (R20). -/
theorem setNpc_setsReg_zero (s : State) (next : Word) :
    SetsReg s (s.beginExecute.setNpc next).endExecute 0#5 0#32 next :=
  .of_writeReg (.setNpc s next) rfl 0#5 0#32

/-- Settles O5: the row of BRANCH in the opcode map, and its choice of next-PC. -/
theorem branchTakenOnEquality : Obligations.BranchTakenOnEquality := by
  refine ⟨fun _ _ hop => decode_of_branch hop, fun rs1 rs2 off s => ?_⟩
  have h := setNpc_setsReg_zero s (nextPc s (.known (.branch rs1 rs2 off)))
  exact ⟨_, exec_branch rs1 rs2 off s, h.ends, h.regsUnchanged, h.ram, h.trace⟩

end Sys2Proof.Machine
end

section
/-! SUPPORT. The effects of LOAD and STORE (R88 to R90). Each is stated from the state its bus access leaves, which
differs from the one EXECUTE began in by the RAM or by one event; what the rest of EXECUTE does to the other fields is
the same seen from either. -/

namespace Sys2Proof.Machine

/-! ## What a bus access leaves alone -/

section
variable {s t : State} {next : Word}

theorem EndsAt.of_record {e : Event} (h : EndsAt (s.record e) t next) : EndsAt s t next := { h with }

theorem EndsAt.of_setRam {m : Memory} (h : EndsAt (s.setRam m) t next) : EndsAt s t next := { h with }

theorem RamUnchanged.of_record {e : Event} (h : RamUnchanged (s.record e) t) : RamUnchanged s t := { h with }

end

/-! ## LOAD (R89) -/

/-- After a read fault LOAD writes 0 and goes on. -/
theorem execLoad_fault_setsReg (s : State) (rd : RegIdx) (ea : Word) :
    SetsReg (s.record (.diagBusReadFault ea))
      ((s.beginExecute.takeFault (.busReadFault ea)).writeReg rd 0#32).endExecute rd 0#32 (s.pc + 4#32) :=
  .of_writeReg (.beginExecute (s.record _)) rfl rd 0#32

/-- Settles O6: LOAD is a register write after a read of RAM, after a read fault, or, to register 0, after no read. -/
theorem loadReadsByteOrFaults : Obligations.LoadReadsByteOrFaults := by
  refine ⟨fun _ _ hop => decode_of_load hop, fun rd rs1 imm s => ?_⟩
  have hskip : rd = 0#5 → s.cfg.loadX0Reads = false → ¬(rd ≠ 0#5 ∨ s.cfg.loadX0Reads = true) :=
    fun h0 hno => not_or.2 ⟨not_not.2 h0, Bool.not_eq_true _ ▸ hno⟩
  rcases execLoad_cases rd rs1 imm s with ⟨hin, -, e⟩ | ⟨hout, hread, e⟩ | ⟨h0, hno, e⟩
  · have h := SetsReg.of_writeReg (.beginExecute s) rfl rd
      ((Memory.read s.ram (s.effAddr rs1 imm).toNat).setWidth 32)
    exact ⟨_, e, h.others, h.ends, h.ram, fun _ => ⟨h.holds, h.trace⟩, fun hout => absurd hin hout,
      fun _ _ => h.trace⟩
  · have h := execLoad_fault_setsReg s rd (s.effAddr rs1 imm)
    exact ⟨_, e, h.others, h.ends.of_record, h.ram.of_record, fun hin => absurd hin hout,
      fun _ _ => ⟨h.holds, h.trace⟩, fun h0 hno => absurd hread (hskip h0 hno)⟩
  · subst h0
    have h := setNpc_setsReg_zero s (s.pc + 4#32)
    exact ⟨_, e, h.others, h.ends, h.ram, fun _ => ⟨rfl, h.trace⟩, fun _ hread => absurd hread (hskip rfl hno),
      fun _ _ => h.trace⟩

/-! ## STORE (R90) -/

/-- The event of STORE outside RAM: the character in the output window, else the write fault (R44, R49). -/
def storeEvent (s : State) (rs2 : RegIdx) (ea : Word) : Event :=
  if inOutWindow s.cfg ea then .outChar ((s.readReg rs2).extractLsb' 0 8) else .diagBusWriteFault ea

/-- STORE outside RAM, where the spec gives it an effect: one event, and nothing is written. -/
theorem execStore_of_outside {s : State} {rs1 rs2 : RegIdx} {imm : Word}
    (hram : ¬inRamWindow s.cfg (s.effAddr rs1 imm))
    (hdef : inOutWindow s.cfg (s.effAddr rs1 imm) → s.effAddr rs1 imm = s.cfg.outBase) :
    execStore rs1 rs2 imm s =
      .next (s.beginExecute.record (storeEvent s rs2 (s.effAddr rs1 imm))).endExecute := by
  rcases execStore_cases rs1 rs2 imm s with ⟨hin, -⟩ | ⟨hroute, -, e⟩ | ⟨hroute, hne, -⟩ | ⟨hroute, e⟩
  · exact absurd hin hram
  · rw [storeEvent, if_pos (route_eq_out.1 hroute).2]
    exact e
  · exact absurd (hdef (route_eq_out.1 hroute).2) hne
  · rw [storeEvent, if_neg (route_eq_unmapped.1 hroute).2]
    exact e

/-- Settles O7: STORE writes its byte in RAM, or records its event outside RAM; either way no register is written. -/
theorem storeWritesByteOrEmitsOrFaults : Obligations.StoreWritesByteOrEmitsOrFaults := by
  refine ⟨fun _ hop => decode_of_store hop, fun rs1 rs2 imm s hdef => ?_⟩
  by_cases hin : inRamWindow s.cfg (s.readReg rs1 + imm)
  · have h := setNpc_setsReg_zero
      (s.setRam (Memory.write s.ram (s.effAddr rs1 imm).toNat ((s.readReg rs2).extractLsb' 0 8))) (s.pc + 4#32)
    exact ⟨_, execStore_of_ram hin, h.regsUnchanged, h.ends.of_setRam, fun _ ha => Memory.read_write_of_ne s.ram _ ha,
      fun _ => ⟨h.trace, fun hwf => Memory.read_write_self hwf _ _⟩, fun hout => absurd hin hout⟩
  · have hea : inOutWindow s.cfg (s.readReg rs1 + imm) → s.readReg rs1 + imm = s.cfg.outBase :=
      fun hwin => (hdef hwin).resolve_left hin
    have h := setNpc_setsReg_zero (s.record (storeEvent s rs2 (s.effAddr rs1 imm))) (s.pc + 4#32)
    exact ⟨_, execStore_of_outside hin hea, h.regsUnchanged, h.ends.of_record, fun a _ => h.ram.bytes a,
      fun hin' => absurd hin' hin, fun _ => ⟨h.ram.of_record, h.trace⟩⟩

/-! ## STORE, then LOAD -/

/-- Settles O50: STORE leaves its byte in RAM, and the parameters and the base register alone, so LOAD reads it. -/
theorem storeThenLoadRoundTrip : Obligations.StoreThenLoadRoundTrip := by
  intro rs1 rs2 rd imm s hwf hin
  obtain ⟨t, hstore, hregs, hends, -, hram, -⟩ :=
    storeWritesByteOrEmitsOrFaults.2 rs1 rs2 imm s fun _ => .inl hin
  obtain ⟨htrace, hbyte⟩ := hram hin
  obtain ⟨u, hload, -, -, -, hread, -⟩ := loadReadsByteOrFaults.2 rd rs1 imm t
  rw [hregs rs1, hends.cfg, hbyte hwf] at hread
  obtain ⟨hholds, htrace'⟩ := hread hin
  exact ⟨t, u, hstore, hload, hholds, htrace'.trans htrace⟩

end Sys2Proof.Machine
end

section
/-! SUPPORT. OP_IMM: one register write, of the sum of the old base register and the immediate (R92). -/

namespace Sys2Proof.Machine

/-- Settles O9: the row of OP_IMM in the opcode map, and its one register write. -/
theorem opImmAddsImmediate : Obligations.OpImmAddsImmediate := by
  refine ⟨fun _ _ hop => decode_of_opImm hop, fun rd rs1 imm s => ?_⟩
  obtain ⟨t, hx, h⟩ := exec_opImm_setsReg rd rs1 imm s
  exact ⟨t, hx, h.parts⟩

end Sys2Proof.Machine
end

section
/-! SUPPORT. The two ways the block halts (R26): SYSTEM at its own address (R93), an unknown opcode after it (R94). Their
effects differ in the next-PC and the events alone. -/

namespace Sys2Proof.Machine

/-- `t` comes after `s` at the end of an EXECUTE that halted with `next` as next-PC and recorded the events `es`: no
register, no byte of RAM and no parameter changed (R26, R29). -/
structure HaltsAt (s t : State) (next : Word) (es : List Event) : Prop where
  halted : t.halted = true
  phase : t.phase = .halted
  pc : t.pc = next
  npc : t.npc = next
  regs : RegsUnchanged s t
  slot0 : t.regs[0] = 0#32
  ram : RamUnchanged s t
  ir : t.ir = s.ir
  cfg : t.cfg = s.cfg
  trace : t.trace = s.trace ++ es

/-- Setting the halt flag is all that EXECUTE has to do, beside its next-PC and its events, to halt (R29). -/
theorem HaltsAt.of_undisturbed {s v : State} {es : List Event} (hv : Undisturbed s.setHalted v)
    (htrace : v.trace = s.trace ++ es) : HaltsAt s v.endExecute v.npc es where
  halted := hv.halted
  phase := (phaseAfter_eq_halted v.halted).2 hv.halted
  pc := rfl
  npc := rfl
  regs r := (State.readReg_endExecute v r).trans (State.readReg_congr hv.regs r)
  slot0 := State.endExecute_slot0 v
  ram := ⟨fun a => congrArg (Memory.read · a) hv.ram, hv.ram⟩
  ir := hv.ir
  cfg := hv.cfg
  trace := htrace

theorem Undisturbed.haltDiag {s v : State} (h : Undisturbed s v) : Undisturbed s v.haltDiag :=
  ⟨by simp [h.cfg], by simp [h.regs], by simp [h.ir], by simp [h.halted], by simp [h.ram]⟩

theorem exec_system_haltsAt (s : State) :
    ∃ t, exec .system s = .next t ∧ HaltsAt s t s.pc (if s.cfg.emitHaltDiag then [.diagHalt s.pc] else []) := by
  have hv : Undisturbed s.setHalted (s.beginExecute.setHalted.setNpc s.pc) := .setNpc s.setHalted s.pc
  have h := HaltsAt.of_undisturbed hv.haltDiag (State.haltDiag_trace _)
  rw [State.haltDiag_npc] at h
  exact ⟨_, rfl, h⟩

theorem execUnknown_haltsAt (op : Opcode) (s : State) :
    ∃ t, execUnknown op s = .next t ∧ HaltsAt s t (s.pc + 4#32) [.diagDecodeFault op s.pc] :=
  ⟨_, rfl, .of_undisturbed (.record s.setHalted (.diagDecodeFault op s.pc)) rfl⟩

/-- Settles O10: the row of SYSTEM in the opcode map, and its halt at pc. -/
theorem systemHaltsAtItsOwnAddress : Obligations.SystemHaltsAtItsOwnAddress := by
  refine ⟨fun _ _ hop => decode_of_system hop, fun s => ?_⟩
  obtain ⟨t, hx, h⟩ := exec_system_haltsAt s
  exact ⟨t, hx, h.halted, h.phase, h.pc, h.npc, h.regs, h.slot0, h.ram, h.ir, h.cfg, h.trace⟩

/-- Settles O11: an opcode that is none of the nine decodes to an unknown opcode, which halts at pc + 4. -/
theorem unknownOpcodeReportsAndHalts : Obligations.UnknownOpcodeReportsAndHalts := by
  intro s hp hop
  obtain ⟨t, hx, h⟩ := execUnknown_haltsAt (s.ir.extractLsb' 0 7) s
  have hstep : step s = .next t := by
    rw [step_of_execute hp, execute_of_unknown (decode_eq_unknown_iff.1 hop), hx]
  exact ⟨t, hstep, h.trace, h.halted, h.phase, h.pc, h.npc, h.regs, h.slot0, h.ram, h.ir, h.cfg⟩

end Sys2Proof.Machine
end

section
/-! SUPPORT. The faults of one step (R95 to R99): a fetch outside RAM takes the read fault and then the decode fault of
the word 0, and every other step records one event at most. -/

namespace Sys2Proof.Machine

/-! ## The fetch outside RAM (R94, R99) -/

/-- The word 0 that a faulting fetch latches is an unknown opcode, so its EXECUTE halts at pc + 4 after the decode
fault. -/
theorem step_of_fetch_outside {s : State} (hp : s.phase = .fetch) (hout : ¬inRamWindow s.cfg s.pc) :
    ∃ t, step s = .next t ∧ HaltsAt ((s.takeFault (.busReadFault s.pc)).latchIr 0#32) t (s.pc + 4#32)
      [.diagDecodeFault 0#7 s.pc] := by
  obtain ⟨-, -, hzero⟩ := fetchReadsWordAtPc
  obtain ⟨t, hx, h⟩ := execUnknown_haltsAt 0#7 ((s.takeFault (.busReadFault s.pc)).latchIr 0#32)
  exact ⟨t, by rw [step_of_fetch hp (fetch_of_outside hout), execute_of_unknown (hzero _), hx], h⟩

/-- Settles O38: the read fault of FETCH comes before the decode fault of EXECUTE, which changes nothing else but pc and
the halt. -/
theorem faultingFetchHalts : Obligations.FaultingFetchHalts := by
  intro s hp hout
  obtain ⟨t, hstep, h⟩ := step_of_fetch_outside hp hout
  have htrace : t.trace = s.trace ++ [.diagBusReadFault s.pc, .diagDecodeFault 0#7 s.pc] := by
    simpa [faultEvent] using h.trace
  exact ⟨t, hstep, htrace, h.halted, h.phase, h.pc, h.ir, h.regs, { h.ram with }, h.cfg⟩

/-! ## The number of events of a step (R34, R95) -/

/-- `t` has the trace of `s` and at most one event after it. -/
def AppendsAtMostOne (s t : State) : Prop := t.trace = s.trace ∨ ∃ e, t.trace = s.trace ++ [e]

/-- An instruction records at most one event: LOAD and STORE make one bus access, SYSTEM may leave its diagnostic, and the
others record nothing. -/
theorem exec_appendsAtMostOne {i : Instr} {s t : State} (h : exec i s = .next t) : AppendsAtMostOne s t := by
  cases i with
  | load rd rs1 imm =>
    rcases execLoad_cases rd rs1 imm s with ⟨-, -, e⟩ | ⟨-, -, e⟩ | ⟨-, -, e⟩ <;>
      obtain rfl := Host.Outcome.next.inj (e.symm.trans h)
    · exact .inl (by simp)
    · exact .inr ⟨.diagBusReadFault (s.effAddr rs1 imm), by simp [faultEvent]⟩
    · exact .inl (by simp)
  | store rs1 rs2 imm =>
    rcases execStore_cases rs1 rs2 imm s with ⟨-, e⟩ | ⟨-, -, e⟩ | ⟨-, -, e⟩ | ⟨-, e⟩ <;> have h' := e.symm.trans h
    · exact Host.Outcome.next.inj h' ▸ .inl rfl
    · exact Host.Outcome.next.inj h' ▸ .inr ⟨_, rfl⟩
    · exact absurd h' nofun
    · exact Host.Outcome.next.inj h' ▸ .inr ⟨_, rfl⟩
  | branch rs1 rs2 off =>
    rw [exec_branch] at h
    exact Host.Outcome.next.inj h ▸ .inl rfl
  | system =>
    obtain ⟨t', hx, ht'⟩ := exec_system_haltsAt s
    obtain rfl := Host.Outcome.next.inj (hx.symm.trans h)
    have htrace := ht'.trace
    split at htrace
    · exact .inr ⟨_, htrace⟩
    · exact .inl (by simpa using htrace)
  | lui rd imm | auipc rd imm | jal rd off | jalr rd rs1 imm | opImm rd rs1 imm =>
    obtain rfl := Host.Outcome.next.inj h
    exact .inl (by simp [State.jumpAndLink])

theorem execute_appendsAtMostOne {s t : State} (h : execute s = .next t) : AppendsAtMostOne s t := by
  cases hd : decode s.cfg.imms s.ir with
  | known i => exact exec_appendsAtMostOne ((execute_of_known hd).symm.trans h)
  | unknown op =>
    obtain ⟨t', hx, ht'⟩ := execUnknown_haltsAt op s
    obtain rfl := Host.Outcome.next.inj (hx.symm.trans ((execute_of_unknown hd).symm.trans h))
    exact .inr ⟨_, ht'.trace⟩

/-- A fetch whose address is in RAM records nothing (R28). -/
theorem fetch_trace_of_ram {s u : State} (h : fetch s = .ok u) (hin : inRamWindow s.cfg s.pc) : u.trace = s.trace := by
  rcases fetch_cases s with ⟨-, -, e⟩ | ⟨-, -, e⟩ | ⟨hout, -⟩
  · exact Except.ok.inj (e.symm.trans h) ▸ rfl
  · exact absurd (e.symm.trans h) nofun
  · exact absurd hin hout

/-- Settles O46: FETCH records an event only outside RAM, where the step records the pair of O38; otherwise the events are
those of EXECUTE. -/
theorem stepAppendsAtMostOneFaultPair : Obligations.StepAppendsAtMostOneFaultPair := by
  intro s t hstep
  obtain ⟨u, ⟨hp, hf⟩ | ⟨-, rfl⟩, hx⟩ := step_eq_execute hstep
  · by_cases hin : inRamWindow s.cfg s.pc
    · have hu : AppendsAtMostOne u t := execute_appendsAtMostOne hx
      rw [AppendsAtMostOne, fetch_trace_of_ram hf hin] at hu
      exact hu.imp_right .inl
    · obtain ⟨t', hstep', htrace, -⟩ := faultingFetchHalts s hp hin
      obtain rfl := Host.Outcome.next.inj (hstep'.symm.trans hstep)
      exact .inr (.inr ⟨hp, hin, htrace⟩)
  · exact (execute_appendsAtMostOne hx).imp_right .inl

end Sys2Proof.Machine
end

section
/-! SUPPORT. Runs (R113): a property that every step keeps holds after any number of steps, and `jal x0, 0` keeps the
machine where it is. -/

namespace Sys2Proof.Machine

/-! ## Runs of any length -/

/-- If `P` lets the machine step and holds again after the step, a run from `P` never stops and stays in `P`. -/
theorem run_stays_of_step_stays {P : State → Prop} (hstays : ∀ s, P s → ∃ t, step s = .next t ∧ P t) (k : Nat)
    {s : State} (hs : P s) : ∃ t : State, Host.Core.run Sys2Proof.core k s = .next t ∧ P t := by
  induction k generalizing s with
  | zero => exact ⟨s, rfl, hs⟩
  | succ k ih =>
    obtain ⟨u, hu, hPu⟩ := hstays s hs
    obtain ⟨t, hrun, hPt⟩ := ih hPu
    have hcore : Sys2Proof.core.step s = .next u := hu
    exact ⟨t, by simp only [Host.Core.run, hcore, hrun], hPt⟩

/-! ## The jump to itself (R85, R113) -/

/-- The next step of `s` fetches the word of `jal x0, 0` and executes it under the reference JAL_IMM (U4). -/
structure AtJumpToSelf (s : State) : Prop where
  jalImm : s.cfg.imms.jalImm = .reference
  phase : s.phase = .fetch
  halted : s.halted = false
  inRam : inRamWindow s.cfg s.pc
  fits : fitsRam s.cfg s.pc .word
  word : Memory.load s.ram s.pc.toNat .word = 0x00000003#32

/-- `t` is `s` again in all but npc and `ir`, the registers as they read. -/
structure SameButNpcIr (s t : State) : Prop where
  cfg : t.cfg = s.cfg
  pc : t.pc = s.pc
  halted : t.halted = s.halted
  phase : t.phase = s.phase
  regs : RegsUnchanged s t
  ram : t.ram = s.ram
  trace : t.trace = s.trace

namespace SameButNpcIr

theorem refl (s : State) : SameButNpcIr s s := ⟨rfl, rfl, rfl, rfl, fun _ => rfl, rfl, rfl⟩

theorem trans {s t u : State} (h : SameButNpcIr s t) (h' : SameButNpcIr t u) : SameButNpcIr s u where
  cfg := h'.cfg.trans h.cfg
  pc := h'.pc.trans h.pc
  halted := h'.halted.trans h.halted
  phase := h'.phase.trans h.phase
  regs r := (h'.regs r).trans (h.regs r)
  ram := h'.ram.trans h.ram
  trace := h'.trace.trans h.trace

/-- Which word is fetched next depends on neither npc nor `ir` (U9). -/
theorem atJumpToSelf {s t : State} (h : SameButNpcIr s t) (hs : AtJumpToSelf s) : AtJumpToSelf t where
  jalImm := by rw [h.cfg, hs.jalImm]
  phase := h.phase.trans hs.phase
  halted := h.halted.trans hs.halted
  inRam := by rw [h.cfg, h.pc]; exact hs.inRam
  fits := by rw [h.cfg, h.pc]; exact hs.fits
  word := by rw [h.ram, h.pc, hs.word]

end SameButNpcIr

theorem decode_jumpToSelf {r : ImmReadings} (hr : r.jalImm = .reference) :
    decode r 0x00000003#32 = .known (.jal 0#5 0#32) := by
  rw [decode_of_jal (by decide), hr]
  decide

/-- The target is pc + 0, the link goes to register 0, and the phase returns to FETCH because the flag is clear. -/
theorem AtJumpToSelf.step_same {s : State} (hs : AtJumpToSelf s) : ∃ t, step s = .next t ∧ SameButNpcIr s t := by
  have hdecode := decode_jumpToSelf hs.jalImm
  rw [← hs.word] at hdecode
  obtain ⟨hfetched, -⟩ := stepRunsDecodedInstruction
  obtain ⟨t, hx, h⟩ := exec_jal_setsReg 0#5 0#32 (s.latchIr (Memory.load s.ram s.pc.toNat .word))
  refine ⟨t, (hfetched s _ hs.phase hs.inRam hs.fits hdecode).trans hx, ?_⟩
  exact
    { cfg := h.ends.cfg
      pc := h.ends.pc.trans (BitVec.add_zero _)
      halted := h.ends.halted
      phase := by rw [h.ends.phase, hs.phase, State.latchIr, hs.halted]; rfl
      regs := h.regsUnchanged
      ram := h.ram.data
      trace := h.trace }

/-- Settles O54: a state that is the first one again, but for npc and `ir`, is at the jump to itself and steps to
another such state. -/
theorem jumpToSelfNeverHalts : Obligations.JumpToSelfNeverHalts := by
  intro s hjal hp hh hin hfit hword k
  have hs : AtJumpToSelf s := ⟨hjal, hp, hh, hin, hfit, hword⟩
  have hstays : ∀ t, SameButNpcIr s t → ∃ u, step t = .next u ∧ SameButNpcIr s u := fun t ht => by
    obtain ⟨u, hu, htu⟩ := (ht.atJumpToSelf hs).step_same
    exact ⟨u, hu, ht.trans htu⟩
  obtain ⟨t, hrun, ht⟩ := run_stays_of_step_stays hstays k (.refl s)
  exact ⟨t, hrun, ht.pc, ht.halted.trans hh, ht.regs, ht.ram, ht.trace⟩

end Sys2Proof.Machine
end
